-- ==== Sys2Proof/Word.lean ====
section
/-! DEFINITION. The word types of the pure-uuid numeric core and the shapes its interface is made of
(spec/00_scope.md R12, R15; spec/30_encoding.md R60, R62). -/

namespace Sys2Proof

/-- An octet, also a base-256 digit of a UI64 (00_scope.md R12). -/
abbrev Octet := BitVec 8

/-- A 32-bit word: a cell of WMEM, an accumulator, a word of a digest block (00_scope.md R12). -/
abbrev Word := BitVec 32

/-- A 64-bit unsigned operand or result value (30_encoding.md R60, R61). -/
abbrev Operand := BitVec 64

/-- The number of a UI64 register, `U[0]` to `U[3]` (10_state.md R20). -/
abbrev Reg := Fin 4

/-- A FixedWidthInteger: 8 digits of base 256, digit 0 least significant (10_state.md R21). -/
abbrev Ui64 := Vector Octet 8

/-- The word widths of the codec commands (30_encoding.md R62 `wsz`; 00_scope.md R8 `P_CODEC_WIDTHS`). -/
inductive Width where
  | w8
  | w16
  | w24
  | w32
deriving DecidableEq, Repr

/-- The byte order of a codec command (30_encoding.md R62 `be`; 20_memory.md R41). -/
inductive ByteOrder where
  | little
  | big
deriving DecidableEq, Repr

/-- A command packet `(CMD, OPA, OPB, OPC)` (30_encoding.md R60). -/
structure Packet where
  cmd : BitVec 32
  opA : Operand
  opB : Operand
  opC : Operand
deriving DecidableEq, Repr

end Sys2Proof
end

