-- ==== Sys2Proof/Syntax.lean ====
section
/-! DEFINITION. The 18 commands of the core, one constructor per row of spec/opcode_table.json, with the
fields and the operands each uses (spec/30_encoding.md R64, R65). An operand a command ignores (R60) is no
part of the instruction. -/

namespace Sys2Proof

/-- A decoded command (30_encoding.md R64, R65). Operand values keep all 64 bits; the rotate amount is a
number of bits (R66). -/
inductive Instr where
  /-- `U64.LDN U<rd>, n` (40_ui64.md R81) -/
  | u64Ldn (rd : Reg) (n : Operand)
  /-- `U64.ADD U<rd>, U<rs>` (40_ui64.md R83) -/
  | u64Add (rd rs : Reg)
  /-- `U64.MULN U<rd>, n` (40_ui64.md R85) -/
  | u64Muln (rd : Reg) (n : Operand)
  /-- `U64.ROR U<rd>, bits` (40_ui64.md R87) -/
  | u64Ror (rd : Reg) (bits : Nat)
  /-- `CDC.S2W width, LE|BE, src, count, dst` (42_codec.md R114) -/
  | cdcS2w (width : Width) (order : ByteOrder) (src count dst : Operand)
  /-- `CDC.W2S width, LE|BE, src, count, dst` (42_codec.md R115) -/
  | cdcW2s (width : Width) (order : ByteOrder) (src count dst : Operand)
  /-- `MD5.INIT` (43_md5.md R139) -/
  | md5Init
  /-- `MD5.BLOCK widx` (43_md5.md R140) -/
  | md5Block (widx : Operand)
  /-- `MD5.OUT dst` (43_md5.md R141) -/
  | md5Out (dst : Operand)
  /-- `MD5.DIGEST src, len, dst` (43_md5.md R142) -/
  | md5Digest (src len dst : Operand)
  /-- `SHA1.INIT` (44_sha1.md R168) -/
  | sha1Init
  /-- `SHA1.BLOCK widx` (44_sha1.md R169) -/
  | sha1Block (widx : Operand)
  /-- `SHA1.OUT dst` (44_sha1.md R170) -/
  | sha1Out (dst : Operand)
  /-- `SHA1.DIGEST src, len, dst` (44_sha1.md R171) -/
  | sha1Digest (src len dst : Operand)
  /-- `BM.WR addr, octet` (45_buffer_access.md R190) -/
  | bmWr (addr octet : Operand)
  /-- `BM.RD addr` (45_buffer_access.md R191) -/
  | bmRd (addr : Operand)
  /-- `WM.WR idx, word` (45_buffer_access.md R192) -/
  | wmWr (idx word : Operand)
  /-- `WM.RD idx` (45_buffer_access.md R193) -/
  | wmRd (idx : Operand)
deriving DecidableEq, Repr

end Sys2Proof
end

