-- ==== Sys2Proof/WellFormed.lean ====
section
/-! DEFINITION. Which terms of `Instr` are instructions a packet can hold. Register numbers, widths, byte
orders and operands cannot be out of range by their types; the rotate amount is a number and must fit the
7-bit field `imm7` (spec/30_encoding.md R62, R66). -/

namespace Sys2Proof

/-- The instruction fits its encoding (30_encoding.md R62: `imm7`, "rotate amount of `U64.ROR` in bits, 0 to
127"). Amounts the command itself refuses (R68) are well formed. -/
def Instr.wellFormed : Instr → Bool
  | .u64Ldn _ _ => true
  | .u64Add _ _ => true
  | .u64Muln _ _ => true
  | .u64Ror _ bits => decide (bits < 128)
  | .cdcS2w _ _ _ _ _ => true
  | .cdcW2s _ _ _ _ _ => true
  | .md5Init => true
  | .md5Block _ => true
  | .md5Out _ => true
  | .md5Digest _ _ _ => true
  | .sha1Init => true
  | .sha1Block _ => true
  | .sha1Out _ => true
  | .sha1Digest _ _ _ => true
  | .bmWr _ _ => true
  | .bmRd _ => true
  | .wmWr _ _ => true
  | .wmRd _ => true

end Sys2Proof
end

