-- ==== Sys2Proof/Decode.lean ====
section
/-! DEFINITION. The decoder, total on every packet and rejecting by name, and after it the encoder
(spec/30_encoding.md R60 to R68). -/

namespace Sys2Proof

/-- Why a packet is no command. All three are the one fault `IllegalCommand` (30_encoding.md R67); the names
are the model's, for a reader. -/
inductive DecodeError where
  /-- `op` is none of the 18 values of 30_encoding.md R64 -/
  | unknownOpcode
  /-- a non-zero bit in `CMD[31:22]` (30_encoding.md R67) -/
  | reservedBitSet
  /-- a non-zero bit in a field the command does not use (30_encoding.md R63, R67) -/
  | unusedFieldSet
deriving DecidableEq, Repr

/-! ### The fields of `CMD` (30_encoding.md R62) -/

/-- `op = CMD[7:0]` -/
def fieldOp (c : BitVec 32) : BitVec 8 := c.extractLsb' 0 8
/-- `rd = CMD[9:8]` -/
def fieldRd (c : BitVec 32) : Reg := (c.extractLsb' 8 2).toFin
/-- `rs = CMD[11:10]` -/
def fieldRs (c : BitVec 32) : Reg := (c.extractLsb' 10 2).toFin
/-- `wsz = CMD[13:12]` -/
def fieldWsz (c : BitVec 32) : BitVec 2 := c.extractLsb' 12 2
/-- `be = CMD[14]` -/
def fieldBe (c : BitVec 32) : BitVec 1 := c.extractLsb' 14 1
/-- `imm7 = CMD[21:15]`, unsigned, in bits (30_encoding.md R66) -/
def fieldImm7 (c : BitVec 32) : Nat := (c.extractLsb' 15 7).toNat
/-- `CMD[31:22]`, reserved -/
def fieldReserved (c : BitVec 32) : BitVec 10 := c.extractLsb' 22 10

/-- The codec width a `wsz` code selects: `8 * (wsz + 1)` bits (30_encoding.md R62, R66). -/
def widthOfCode (wsz : BitVec 2) : Width :=
  if wsz = 0#2 then .w8 else if wsz = 1#2 then .w16 else if wsz = 2#2 then .w24 else .w32

/-- The byte order a `be` bit selects: 1 big-endian, 0 little-endian (30_encoding.md R62). -/
def orderOfBit (be : BitVec 1) : ByteOrder :=
  if be = 1#1 then .big else .little

/-! ### The opcode map (30_encoding.md R64) -/

/-- A row of the opcode map: the packet selects the command iff `CMD & mask = pattern` (30_encoding.md R63). -/
structure OpcodeRow where
  pattern : BitVec 32
  mask    : BitVec 32
  build   : Packet → Instr

/-- 40_ui64.md: the UI64 rows of 30_encoding.md R64. -/
def opcodeRowsUi64 : List OpcodeRow :=
  [ ⟨0x00000010#32, 0xFFFFFCFF#32, fun p => .u64Ldn (fieldRd p.cmd) p.opA⟩,
    ⟨0x00000011#32, 0xFFFFF0FF#32, fun p => .u64Add (fieldRd p.cmd) (fieldRs p.cmd)⟩,
    ⟨0x00000012#32, 0xFFFFFCFF#32, fun p => .u64Muln (fieldRd p.cmd) p.opA⟩,
    ⟨0x00000013#32, 0xFFC07CFF#32, fun p => .u64Ror (fieldRd p.cmd) (fieldImm7 p.cmd)⟩ ]

/-- 42_codec.md: the codec rows of 30_encoding.md R64. -/
def opcodeRowsCodec : List OpcodeRow :=
  [ ⟨0x00000020#32, 0xFFFF8FFF#32, fun p =>
      .cdcS2w (widthOfCode (fieldWsz p.cmd)) (orderOfBit (fieldBe p.cmd)) p.opA p.opB p.opC⟩,
    ⟨0x00000021#32, 0xFFFF8FFF#32, fun p =>
      .cdcW2s (widthOfCode (fieldWsz p.cmd)) (orderOfBit (fieldBe p.cmd)) p.opA p.opB p.opC⟩ ]

/-- 43_md5.md: the MD5 rows of 30_encoding.md R64. -/
def opcodeRowsMd5 : List OpcodeRow :=
  [ ⟨0x00000030#32, 0xFFFFFFFF#32, fun _ => .md5Init⟩,
    ⟨0x00000031#32, 0xFFFFFFFF#32, fun p => .md5Block p.opA⟩,
    ⟨0x00000032#32, 0xFFFFFFFF#32, fun p => .md5Out p.opA⟩,
    ⟨0x00000033#32, 0xFFFFFFFF#32, fun p => .md5Digest p.opA p.opB p.opC⟩ ]

/-- 44_sha1.md: the SHA-1 rows of 30_encoding.md R64. -/
def opcodeRowsSha1 : List OpcodeRow :=
  [ ⟨0x00000040#32, 0xFFFFFFFF#32, fun _ => .sha1Init⟩,
    ⟨0x00000041#32, 0xFFFFFFFF#32, fun p => .sha1Block p.opA⟩,
    ⟨0x00000042#32, 0xFFFFFFFF#32, fun p => .sha1Out p.opA⟩,
    ⟨0x00000043#32, 0xFFFFFFFF#32, fun p => .sha1Digest p.opA p.opB p.opC⟩ ]

/-- 45_buffer_access.md: the buffer rows of 30_encoding.md R64. -/
def opcodeRowsBuffer : List OpcodeRow :=
  [ ⟨0x00000050#32, 0xFFFFFFFF#32, fun p => .bmWr p.opA p.opB⟩,
    ⟨0x00000051#32, 0xFFFFFFFF#32, fun p => .bmRd p.opA⟩,
    ⟨0x00000052#32, 0xFFFFFFFF#32, fun p => .wmWr p.opA p.opB⟩,
    ⟨0x00000053#32, 0xFFFFFFFF#32, fun p => .wmRd p.opA⟩ ]

/-- The whole opcode map, 18 rows (30_encoding.md R64). -/
def opcodeRows : List OpcodeRow :=
  opcodeRowsUi64 ++ opcodeRowsCodec ++ opcodeRowsMd5 ++ opcodeRowsSha1 ++ opcodeRowsBuffer

/-- Does the command word select this row (30_encoding.md R63)? -/
def OpcodeRow.selects (r : OpcodeRow) (c : BitVec 32) : Bool := c &&& r.mask == r.pattern

/-- The name of the rejection of a word no row selects. -/
def rejection (c : BitVec 32) : DecodeError :=
  if opcodeRows.all (fun r => fieldOp r.pattern != fieldOp c) then .unknownOpcode
  else if fieldReserved c != 0#10 then .reservedBitSet
  else .unusedFieldSet

/-- The decoder (30_encoding.md R63, R67): total, and it looks at no operand to decide. -/
def decode (p : Packet) : Except DecodeError Instr :=
  match opcodeRows.find? (fun r => r.selects p.cmd) with
  | some r => .ok (r.build p)
  | none => .error (rejection p.cmd)

/-! ### The encoder (30_encoding.md R62 to R66) -/

/-- The `wsz` code of a width (30_encoding.md R62). -/
def codeOfWidth : Width → BitVec 2
  | .w8 => 0#2
  | .w16 => 1#2
  | .w24 => 2#2
  | .w32 => 3#2

/-- The `be` bit of a byte order (30_encoding.md R62). -/
def bitOfOrder : ByteOrder → BitVec 1
  | .little => 0#1
  | .big => 1#1

/-- A command word laid out as the diagram of 30_encoding.md R62, most significant field first; the reserved
bits are zero. -/
def commandWord (op : BitVec 8) (rd rs : Reg) (wsz : BitVec 2) (be : BitVec 1) (imm7 : BitVec 7) : BitVec 32 :=
  0#10 ++ imm7 ++ be ++ wsz ++ (BitVec.ofFin (w := 2) rs) ++ (BitVec.ofFin (w := 2) rd) ++ op

/-- A command word with no field but `op`. -/
def plainWord (op : BitVec 8) : BitVec 32 := commandWord op 0 0 0#2 0#1 0#7

/-- The encoder: the packet of an instruction, unused operands 0 (30_encoding.md R64, R65, R71). DESIGN CHOICE for
the ill-formed `U64.ROR` with an amount above 127, which `imm7` cannot hold: the amount is taken modulo 128
(notes/assumptions/19.md). -/
def encode : Instr → Packet
  | .u64Ldn rd n => ⟨commandWord 0x10#8 rd 0 0#2 0#1 0#7, n, 0, 0⟩
  | .u64Add rd rs => ⟨commandWord 0x11#8 rd rs 0#2 0#1 0#7, 0, 0, 0⟩
  | .u64Muln rd n => ⟨commandWord 0x12#8 rd 0 0#2 0#1 0#7, n, 0, 0⟩
  | .u64Ror rd bits => ⟨commandWord 0x13#8 rd 0 0#2 0#1 (BitVec.ofNat 7 bits), 0, 0, 0⟩
  | .cdcS2w w o src count dst => ⟨commandWord 0x20#8 0 0 (codeOfWidth w) (bitOfOrder o) 0#7, src, count, dst⟩
  | .cdcW2s w o src count dst => ⟨commandWord 0x21#8 0 0 (codeOfWidth w) (bitOfOrder o) 0#7, src, count, dst⟩
  | .md5Init => ⟨plainWord 0x30#8, 0, 0, 0⟩
  | .md5Block widx => ⟨plainWord 0x31#8, widx, 0, 0⟩
  | .md5Out dst => ⟨plainWord 0x32#8, dst, 0, 0⟩
  | .md5Digest src len dst => ⟨plainWord 0x33#8, src, len, dst⟩
  | .sha1Init => ⟨plainWord 0x40#8, 0, 0, 0⟩
  | .sha1Block widx => ⟨plainWord 0x41#8, widx, 0, 0⟩
  | .sha1Out dst => ⟨plainWord 0x42#8, dst, 0, 0⟩
  | .sha1Digest src len dst => ⟨plainWord 0x43#8, src, len, dst⟩
  | .bmWr addr octet => ⟨plainWord 0x50#8, addr, octet, 0⟩
  | .bmRd addr => ⟨plainWord 0x51#8, addr, 0, 0⟩
  | .wmWr idx word => ⟨plainWord 0x52#8, idx, word, 0⟩
  | .wmRd idx => ⟨plainWord 0x53#8, idx, 0, 0⟩

/-! ### Packets from a number (the host's check) -/

/-- The packet whose bits are `w`: `CMD` is bits 31 to 0, `OPA` bits 95 to 32, `OPB` bits 159 to 96, `OPC`
bits 223 to 160. DESIGN CHOICE: the spec gives a packet no order beyond the tuple (notes/assumptions/10.md). -/
def packetOfNat (w : Nat) : Packet :=
  { cmd := BitVec.ofNat 32 w
    opA := BitVec.ofNat 64 (w / 2 ^ 32)
    opB := BitVec.ofNat 64 (w / 2 ^ 96)
    opC := BitVec.ofNat 64 (w / 2 ^ 160) }

/-- The packet of an `nbits`-bit word `w`; every bit above `nbits` is 0. -/
def packetOfBits (nbits w : Nat) : Packet := packetOfNat (w % 2 ^ nbits)

/-- The instruction the decoder reads from an instruction whose bits are `w`. -/
def decodeTableWord (nbits w : Nat) : Option Instr :=
  match decode (packetOfBits nbits w) with
  | .ok i => some i
  | .error _ => none

end Sys2Proof
end

