-- ==== Sys2Proof/Config.lean ====
section
/-! DEFINITION. The parameters of the core (spec/00_scope.md R2, R7, R8): constants where the spec fixes
the value, a record where it leaves the value to the platform. No value is free: the spec's open values are
these parameters and the reset contents (notes/assumptions/1.md, 2.md, 3.md, 4.md). -/

namespace Sys2Proof

/-- What enters the top digits of a rotated UI64: `P_ROR_FILL` (00_scope.md R8; 93_implementation_defined.md U7). -/
inductive RorFill where
  | rotate
  | zero
deriving DecidableEq, Repr

/-- How several rotated-out digits form the returned integer: `P_ROR_ORDER` (00_scope.md R8;
93_implementation_defined.md U7). -/
inductive RorOrder where
  | firstOutLow
  | firstOutHigh
deriving DecidableEq, Repr

/-- The parameters the model takes as arguments (00_scope.md R8; 92_eei_decisions.md, open parameters). -/
structure Params where
  bmemBytes : Nat
  wmemWords : Nat
  rorFill   : RorFill
  rorOrder  : RorOrder
deriving DecidableEq, Repr

/-- The constraints of 00_scope.md R8 on the sizes of the two memories. -/
abbrev Params.Ok (p : Params) : Prop :=
  84 ≤ p.bmemBytes ∧ p.bmemBytes < 2 ^ 32 ∧ 16 ≤ p.wmemWords ∧ p.wmemWords < 2 ^ 32

/-- The normative setting of the two rotate parameters (00_scope.md R8; 93_implementation_defined.md U7). -/
abbrev Params.RorNormative (p : Params) : Prop :=
  p.rorFill = .rotate ∧ p.rorOrder = .firstOutLow

/-- The sizes every example of the spec uses, with the normative rotate setting
(00_scope.md R8; 95_test_vectors.md, conventions). DESIGN CHOICE for the two sizes: notes/assumptions/1.md. -/
def Params.ofExamples : Params :=
  { bmemBytes := 4096, wmemWords := 1024, rorFill := .rotate, rorOrder := .firstOutLow }

/-- `UI64_DIGITS` (00_scope.md R7). -/
def Config.ui64Digits : Nat := 8
/-- `MD5_STEPS` (00_scope.md R7). -/
def Config.md5Steps : Nat := 64
/-- `SHA1_STEPS` (00_scope.md R7). -/
def Config.sha1Steps : Nat := 80
/-- Words in a block: `BLOCK_BITS` / `WORD_BITS` (00_scope.md R7). -/
def Config.blockWords : Nat := 16
/-- `MD5_OUT_OCTETS` (00_scope.md R7). -/
def Config.md5OutOctets : Nat := 16
/-- `SHA1_OUT_OCTETS` (00_scope.md R7). -/
def Config.sha1OutOctets : Nat := 20
/-- `P_MULN_BITS` (00_scope.md R8). -/
def Config.mulnBits : Nat := 32
/-- `P_ROR_MAX_BITS` (00_scope.md R8). -/
def Config.rorMaxBits : Nat := 64

/-- The identity a model records (00_scope.md R2); no command reads it (10_state.md R29). -/
structure Config.Identity where
  name       : String
  origin     : String
  source     : String
  revision   : Option String
  commandSet : String
deriving DecidableEq, Repr

/-- 00_scope.md R2; "source DOC00 (no revision)". -/
def Config.identity : Config.Identity :=
  { name := "pure-uuid numeric core", origin := "rse/pure-uuid", source := "DOC00", revision := none,
    commandSet := "spec-1" }

end Sys2Proof
end

