-- ==== Sys2Proof/Machine/State.lean ====
section
/-! DEFINITION. The state of the core as plain data (spec/10_state.md R20 to R33), the response of the
interface (spec/30_encoding.md R61), the host's events, the outcomes of a step, and the machine after reset. -/

namespace Sys2Proof.Machine

/-- A memory of cells `w` bits wide: (address, content) pairs, addresses strictly rising, no entry equal to
what an unlisted address reads as (`Memory.wf` in Ops.lean). `Memory 8` is a list of `Host.Cell`. -/
abbrev Memory (w : Nat) := List (Nat × BitVec w)

/-- The four 32-bit MD5 accumulators `MA[0]` to `MA[3]`, "in the usual letters" a, b, c, d (10_state.md R23);
also the working words of a step (43_md5.md R135). -/
structure Md5Acc where
  a : Word
  b : Word
  c : Word
  d : Word
deriving DecidableEq, Repr

/-- The five 32-bit SHA-1 accumulators `SH[0]` to `SH[4]`, a, b, c, d, e (10_state.md R24); also the working
words of a step (44_sha1.md R164). -/
structure Sha1Acc where
  a : Word
  b : Word
  c : Word
  d : Word
  e : Word
deriving DecidableEq, Repr

/-- The status codes the core produces; 5 to 15 are never produced (60_exceptions.md R200). -/
inductive Status where
  /-- 0: the command completed -/
  | ok
  /-- 1: `CMD` matches no row of the opcode map -/
  | illegalCommand
  /-- 2: an operand value is wider than the command allows -/
  | illegalOperand
  /-- 3: the rotate amount is not a whole number of digits -/
  | rorGranularity
  /-- 4: a range named by the command does not lie inside its memory -/
  | addressRange
deriving DecidableEq, Repr

/-- The response `(STATUS, RES)` to a packet (30_encoding.md R61). -/
structure Response where
  status : Status
  res    : Operand
deriving DecidableEq, Repr

/-- The values a reset leaves in the five pieces of state: "any value of its width, fixed until written"
(10_state.md R33). Cells the memory lists do not name hold what an unlisted address reads as. -/
structure ResetValues where
  u    : Vector Ui64 4
  ma   : Md5Acc
  sh   : Sha1Acc
  bmem : Memory 8
  wmem : Memory 32
deriving DecidableEq, Repr

/-- What the outside does between two commands: the host presents a packet (00_scope.md R9, R10), or the
environment applies reset (70_reset_and_hazards.md R220), whose unspecified values come with the event. -/
inductive HostEvent where
  | packet (p : Packet)
  | reset (values : ResetValues)
deriving DecidableEq, Repr

/-- The state. The first five fields are the whole architectural state (10_state.md R20 to R26); `params`
holds the model's arguments of 00_scope.md R8, which no step changes; `inbox` and `response` are the two sides
of the interface, the events still to come, oldest first, and the last response given. -/
@[ext]
structure State where
  u        : Vector Ui64 4
  ma       : Md5Acc
  sh       : Sha1Acc
  bmem     : Memory 8
  wmem     : Memory 32
  params   : Params
  inbox    : List HostEvent
  response : Option Response
deriving DecidableEq, Repr

/-- Reasons for the machine to stop with a fault. There is none: every fault of the core is a response after
which it executes the next packet (60_exceptions.md R202, R206), and every command terminates
(70_reset_and_hazards.md R228). Nobody raises one; safe, since no step stops (notes/assumptions/12.md). -/
inductive Fault where
deriving DecidableEq, Repr

/-- Reasons to refuse an instruction. -/
inductive Refusal where
  /-- An arm of `exec` with no meaning yet; no arm of this model raises it. Safe. -/
  | notModelled (mnemonic : String)
deriving DecidableEq, Repr

/-- A UI64 register of eight zero digits. -/
def zeroUi64 : Ui64 := ⟨#[0, 0, 0, 0, 0, 0, 0, 0], rfl⟩

/-- The machine right after reset. The spec leaves every register and cell unspecified (10_state.md R33);
the model names zero, one value for every run (DESIGN CHOICE, notes/assumptions/3.md and 4.md). The sizes are
those of the spec's examples, the rotate setting is the normative one (notes/assumptions/1.md, 2.md). No
packet has been presented and no response given. -/
def State.reset : State :=
  { u := ⟨#[zeroUi64, zeroUi64, zeroUi64, zeroUi64], rfl⟩
    ma := ⟨0, 0, 0, 0⟩
    sh := ⟨0, 0, 0, 0, 0⟩
    bmem := []
    wmem := []
    params := Params.ofExamples
    inbox := []
    response := none }

end Sys2Proof.Machine
end

