-- ==== Sys2Proof/Machine/Ops.lean ====
section
/-! DEFINITION. The named operations over the memories, the registers and the response
(spec/00_scope.md R13; spec/20_memory.md R46 to R49; spec/60_exceptions.md R200 to R206). -/

namespace Sys2Proof.Machine

/-- The outcome of executing a command. -/
abbrev Result := Host.Outcome State Fault Refusal

/-! ### Memories -/

/-- What an address that is not listed reads as. The spec leaves reset contents unspecified (10_state.md
R33); DESIGN CHOICE: zero (notes/assumptions/4.md). -/
def Memory.unlisted {w : Nat} : BitVec w := 0#w

/-- The canonical form: addresses strictly rising, no entry equal to what an unlisted address reads as. -/
abbrev Memory.wf {w : Nat} (m : Memory w) : Prop :=
  m.Pairwise (fun x y => x.1 < y.1) ∧ ∀ c ∈ m, c.2 ≠ Memory.unlisted

/-- Every listed address lies inside a memory of `size` cells (10_state.md R25, R26). -/
abbrev Memory.inside {w : Nat} (size : Nat) (m : Memory w) : Prop := ∀ c ∈ m, c.1 < size

/-- The content of one cell. -/
def Memory.read {w : Nat} : Memory w → Nat → BitVec w
  | [], _ => Memory.unlisted
  | (k, v) :: rest, a => if k = a then v else Memory.read rest a

/-- Put `v` before the cells of `m` at `a`, unless it is what an unlisted address reads as. -/
def Memory.consCell {w : Nat} (a : Nat) (v : BitVec w) (m : Memory w) : Memory w :=
  if v = Memory.unlisted then m else (a, v) :: m

/-- Write one cell, keeping the canonical form. -/
def Memory.write {w : Nat} : Memory w → Nat → BitVec w → Memory w
  | [], a, v => Memory.consCell a v []
  | (k, x) :: rest, a, v =>
    if a < k then Memory.consCell a v ((k, x) :: rest)
    else if a = k then Memory.consCell a v rest
    else (k, x) :: Memory.write rest a v

/-- `MemRead(addr, n)` and `[WRead(idx), ...]`: `n` cells, lowest address first (00_scope.md R13). -/
def Memory.readRange {w : Nat} (m : Memory w) : Nat → Nat → List (BitVec w)
  | _, 0 => []
  | a, n + 1 => m.read a :: m.readRange (a + 1) n

/-- `MemWrite(addr, n, v)` and `WWrite(idx + j, v[j])`: `v[0]` at the lowest address (00_scope.md R13). -/
def Memory.writeRange {w : Nat} (m : Memory w) : Nat → List (BitVec w) → Memory w
  | _, [] => m
  | a, v :: vs => (m.write a v).writeRange (a + 1) vs

/-- The memory of `size` cells that a list of cells describes; cells outside are no part of it. -/
def Memory.ofCells {w : Nat} (size : Nat) (cells : List (Nat × BitVec w)) : Memory w :=
  cells.foldl (fun m c => if c.1 < size then m.write c.1 c.2 else m) []

/-- A range `[base, base + n)` is legal iff `base + n <= size`, in unbounded integers (20_memory.md R46). -/
def rangeLegal (base n size : Nat) : Bool := decide (base + n ≤ size)

/-- The range check against BMEM (20_memory.md R46). -/
def State.bmemHas (s : State) (base n : Nat) : Bool := rangeLegal base n s.params.bmemBytes

/-- The range check against WMEM (20_memory.md R46). -/
def State.wmemHas (s : State) (base n : Nat) : Bool := rangeLegal base n s.params.wmemWords

/-- Write octets to BMEM. -/
def State.writeBmem (s : State) (a : Nat) (octets : List Octet) : State :=
  { s with bmem := s.bmem.writeRange a octets }

/-- Write words to WMEM. -/
def State.writeWmem (s : State) (a : Nat) (words : List Word) : State :=
  { s with wmem := s.wmem.writeRange a words }

/-! ### Registers -/

/-- `U[r]` (00_scope.md R13). -/
def State.readU (s : State) (r : Reg) : Ui64 := s.u[r]

/-- `U[r] <- x` (00_scope.md R13); no register is hardwired (10_state.md R20). -/
def State.writeU (s : State) (r : Reg) (x : Ui64) : State := { s with u := s.u.set r x }

/-- `MA <- acc` (10_state.md R23). -/
def State.writeMa (s : State) (acc : Md5Acc) : State := { s with ma := acc }

/-- `SH <- acc` (10_state.md R24). -/
def State.writeSh (s : State) (acc : Sha1Acc) : State := { s with sh := acc }

/-- `MA[0]` to `MA[3]` as a list (43_md5.md R141). -/
def Md5Acc.toList (x : Md5Acc) : List Word := [x.a, x.b, x.c, x.d]

/-- `SH[0]` to `SH[4]` as a list (44_sha1.md R170). -/
def Sha1Acc.toList (x : Sha1Acc) : List Word := [x.a, x.b, x.c, x.d, x.e]

/-- Digit `i` of a UI64 as a number; there is none above place 7. -/
def digit (x : Ui64) (i : Nat) : Nat := (x[i]?.getD 0#8).toNat

/-- `sum over j in 0 .. k-1 of x[j] * 256^j`. -/
def digitSum (x : Ui64) : Nat → Nat
  | 0 => 0
  | k + 1 => digitSum x k + digit x k * 256 ^ k

/-- `val(x)` (00_scope.md R13; 10_state.md R21). -/
def val (x : Ui64) : Nat := digitSum x 8

/-! ### Responses and faults -/

/-- The 4-bit code of a status (60_exceptions.md R200). -/
def Status.code : Status → BitVec 4
  | .ok => 0#4
  | .illegalCommand => 1#4
  | .illegalOperand => 2#4
  | .rorGranularity => 3#4
  | .addressRange => 4#4

/-- Give a response: it stands in the response port until the next one (notes/assumptions/6.md). -/
def State.respond (s : State) (status : Status) (res : Operand) : State :=
  { s with response := some { status := status, res := res } }

/-- `respond(v)`: the command ends with status `OK` and result `v` (00_scope.md R13). The number is narrowed
to the 64 bits of `RES`; under the constraints of R8 nothing is lost (notes/assumptions/14.md). -/
def complete (s : State) (v : Nat) : Result := .next (s.respond .ok (BitVec.ofNat 64 v))

/-- `raise <Fault>()`, the one way a fault is taken (00_scope.md R13; 60_exceptions.md R202, R205): the response
is `(code, 0)`, the state is the state before, nothing is recorded anywhere else, and the next packet executes
normally. There is nothing to return from (60_exceptions.md R206). -/
def raise (status : Status) (s : State) : Result := .next (s.respond status 0#64)

/-- The effect of a reset between two packets (70_reset_and_hazards.md R220): every piece of state holds the
values the event brings, no command is in progress and no response stands in the port. The events still to
come and the parameters are outside the core and stay (notes/assumptions/8.md). -/
def applyReset (values : ResetValues) (s : State) : State :=
  { s with
    u := values.u
    ma := values.ma
    sh := values.sh
    bmem := Memory.ofCells s.params.bmemBytes values.bmem
    wmem := Memory.ofCells s.params.wmemWords values.wmem
    response := none }

end Sys2Proof.Machine
end

