-- ==== Sys2Proof/Machine/Operands.lean ====
section
/-! DEFINITION. The operand forms of the packet (spec/30_encoding.md R65, R66): addresses and counts, narrow
values, the rotate amount, the codec width. -/

namespace Sys2Proof.Machine

/-- An address or count operand uses all 64 bits as they stand (30_encoding.md R65; 45_buffer_access.md). -/
def operandNat (x : Operand) : Nat := x.toNat

/-- Does the operand fit in its low `bits` bits? If not it is an `IllegalOperand` (30_encoding.md R65). -/
def operandFits (bits : Nat) (x : Operand) : Bool := decide (x.toNat < 2 ^ bits)

/-- The octet an operand carries in `[7:0]` (30_encoding.md R65; 45_buffer_access.md R190). -/
def operandOctet (x : Operand) : Octet := BitVec.ofNat 8 x.toNat

/-- The word an operand carries in `[31:0]` (30_encoding.md R65; 45_buffer_access.md R192). -/
def operandWord (x : Operand) : Word := BitVec.ofNat 32 x.toNat

/-- The number of octets in a codec word, `q = wsz + 1` (30_encoding.md R66). -/
def octetsPerWord : Width → Nat
  | .w8 => 1
  | .w16 => 2
  | .w24 => 3
  | .w32 => 4

/-- The width of a codec word in bits, `8 * (wsz + 1)` (30_encoding.md R66). -/
def bitsOfWidth (w : Width) : Nat := 8 * octetsPerWord w

/-- The rotate amount is a whole number of digits (40_ui64.md R87). -/
def wholeDigits (bits : Nat) : Bool := bits % 8 == 0

/-- The rotate amount is at most `P_ROR_MAX_BITS` (40_ui64.md R87; 00_scope.md R8). -/
def rotateInReach (bits : Nat) : Bool := decide (bits ≤ Config.rorMaxBits)

/-- `ceil(n / q)` (20_memory.md R47; 42_codec.md R110). -/
def ceilDiv (n q : Nat) : Nat := (n + (q - 1)) / q

end Sys2Proof.Machine
end

