-- ==== Sys2Proof/Machine/Buffer.lean ====
section
/-! DEFINITION. The buffer access commands, the only loads and stores of the core
(spec/45_buffer_access.md R190 to R193). -/

namespace Sys2Proof.Machine

/-- `BM.WR addr, octet`: the operand is tested before the address (45_buffer_access.md R190). -/
def execBmWr (addr octet : Operand) (s : State) : Result :=
  if operandFits 8 octet then
    if s.bmemHas (operandNat addr) 1 then
      complete (s.writeBmem (operandNat addr) [operandOctet octet]) 0
    else raise .addressRange s
  else raise .illegalOperand s

/-- `BM.RD addr`: the octet, zero-extended (45_buffer_access.md R191). -/
def execBmRd (addr : Operand) (s : State) : Result :=
  if s.bmemHas (operandNat addr) 1 then complete s (s.bmem.read (operandNat addr)).toNat
  else raise .addressRange s

/-- `WM.WR idx, word`: the operand is tested before the index (45_buffer_access.md R192). -/
def execWmWr (idx word : Operand) (s : State) : Result :=
  if operandFits 32 word then
    if s.wmemHas (operandNat idx) 1 then
      complete (s.writeWmem (operandNat idx) [operandWord word]) 0
    else raise .addressRange s
  else raise .illegalOperand s

/-- `WM.RD idx`: the cell, zero-extended (45_buffer_access.md R193). -/
def execWmRd (idx : Operand) (s : State) : Result :=
  if s.wmemHas (operandNat idx) 1 then complete s (s.wmem.read (operandNat idx)).toNat
  else raise .addressRange s

end Sys2Proof.Machine
end

