-- ==== Sys2Proof/Machine/Codec.lean ====
section
/-! DEFINITION. The Byte/Word Codec: the two sequence functions and the two commands
(spec/42_codec.md R110 to R115). -/

namespace Sys2Proof.Machine

/-- The weight of octet `m` of a word of `q` octets, as a power of 256 (42_codec.md R110, R112): the first
octet is the most significant in big-endian order, the least significant in little-endian order. -/
def octetPlace (order : ByteOrder) (q m : Nat) : Nat :=
  match order with
  | .big => q - 1 - m
  | .little => m

/-- The word of `q` octets that starts a list of octets; missing octets count as zero (42_codec.md R110). -/
def packOctets (order : ByteOrder) (q : Nat) (octets : List Octet) : Nat :=
  ((List.range q).map fun m => (octets[m]?.getD 0#8).toNat * 256 ^ octetPlace order q m).sum

/-- Pack the groups of `q` octets one after another, at most `fuel` of them. -/
def packGroups (order : ByteOrder) (q : Nat) : Nat → List Octet → List Word
  | 0, _ => []
  | _ + 1, [] => []
  | fuel + 1, o :: rest =>
    BitVec.ofNat 32 (packOctets order q (o :: rest)) :: packGroups order q fuel ((o :: rest).drop q)

/-- `StringToWords(octets, ob, be)`: `ceil(len / q)` words, an empty list for an empty list (42_codec.md R110). -/
def stringToWords (w : Width) (order : ByteOrder) (octets : List Octet) : List Word :=
  packGroups order (octetsPerWord w) octets.length octets

/-- The octets of one word, bits above the width ignored (42_codec.md R112). -/
def unpackWord (order : ByteOrder) (q : Nat) (word : Word) : List Octet :=
  (List.range q).map fun m => BitVec.ofNat 8 (word.toNat / 256 ^ octetPlace order q m)

/-- `WordsToString(words, ib, be)` (42_codec.md R112). -/
def wordsToString (w : Width) (order : ByteOrder) (words : List Word) : List Octet :=
  words.flatMap (unpackWord order (octetsPerWord w))

/-- `stringToWords` with input units wider than an octet: each unit is first replaced by its octets, most
significant first, whatever the byte order of the output (42_codec.md R111). No command reaches it. -/
def unitsToWords (input : Width) (w : Width) (order : ByteOrder) (units : List Word) : List Word :=
  stringToWords w order (wordsToString input .big units)

/-- `CDC.S2W width, LE|BE, src, count, dst` (42_codec.md R114). -/
def execCdcS2w (w : Width) (order : ByteOrder) (src count dst : Operand) (s : State) : Result :=
  let n := ceilDiv (operandNat count) (octetsPerWord w)
  if s.bmemHas (operandNat src) (operandNat count) then
    if s.wmemHas (operandNat dst) n then
      let words := stringToWords w order (s.bmem.readRange (operandNat src) (operandNat count))
      complete (s.writeWmem (operandNat dst) words) n
    else raise .addressRange s
  else raise .addressRange s

/-- `CDC.W2S width, LE|BE, src, count, dst` (42_codec.md R115). -/
def execCdcW2s (w : Width) (order : ByteOrder) (src count dst : Operand) (s : State) : Result :=
  let n := operandNat count * octetsPerWord w
  if s.wmemHas (operandNat src) (operandNat count) then
    if s.bmemHas (operandNat dst) n then
      let octets := wordsToString w order (s.wmem.readRange (operandNat src) (operandNat count))
      complete (s.writeBmem (operandNat dst) octets) n
    else raise .addressRange s
  else raise .addressRange s

end Sys2Proof.Machine
end

