-- ==== Sys2Proof/Machine/Ui32.lean ====
section
/-! DEFINITION. The Word Arithmetic (UI32) primitives (spec/41_ui32.md R100 to R103): the datapath of the two
compression functions; no command of its own. -/

namespace Sys2Proof.Machine

/-- `(a + b) mod 2^32` (41_ui32.md R100). -/
def add32 (a b : Word) : Word := a + b

/-- The 32-bit left rotation for amounts 0 to 31 (41_ui32.md R101). DESIGN CHOICE outside that domain, where
no rule calls it: the amount is taken modulo 32 (notes/assumptions/13.md). -/
def rotl32 (x : Word) (s : Nat) : Word := x.rotateLeft s

/-- The bitwise complement within 32 bits (41_ui32.md R102). -/
def not32 (x : Word) : Word := ~~~x

/-- Bitwise AND (41_ui32.md R103). -/
def and32 (a b : Word) : Word := a &&& b

/-- Bitwise inclusive OR (41_ui32.md R103). -/
def or32 (a b : Word) : Word := a ||| b

/-- Bitwise exclusive OR (41_ui32.md R103). -/
def xor32 (a b : Word) : Word := a ^^^ b

end Sys2Proof.Machine
end

