-- ==== Sys2Proof/Machine/Md5.lean ====
section
/-! DEFINITION. The MD5 unit: constants, compression function, padding, digest and the four commands
(spec/43_md5.md R130 to R142). Constants and step formula are the spec's own tables, which the spec marks as
general knowledge and records as checked (notes/assumptions/16.md). -/

namespace Sys2Proof.Machine

/-- `MD5_IV` (43_md5.md R130). -/
def md5Iv : Md5Acc := ⟨0x67452301#32, 0xEFCDAB89#32, 0x98BADCFE#32, 0x10325476#32⟩

/-- `K[0]` to `K[15]` (43_md5.md R131). -/
def md5K1 : List Word :=
  [ 0xD76AA478#32, 0xE8C7B756#32, 0x242070DB#32, 0xC1BDCEEE#32,
    0xF57C0FAF#32, 0x4787C62A#32, 0xA8304613#32, 0xFD469501#32,
    0x698098D8#32, 0x8B44F7AF#32, 0xFFFF5BB1#32, 0x895CD7BE#32,
    0x6B901122#32, 0xFD987193#32, 0xA679438E#32, 0x49B40821#32 ]

/-- `K[16]` to `K[31]` (43_md5.md R131). -/
def md5K2 : List Word :=
  [ 0xF61E2562#32, 0xC040B340#32, 0x265E5A51#32, 0xE9B6C7AA#32,
    0xD62F105D#32, 0x02441453#32, 0xD8A1E681#32, 0xE7D3FBC8#32,
    0x21E1CDE6#32, 0xC33707D6#32, 0xF4D50D87#32, 0x455A14ED#32,
    0xA9E3E905#32, 0xFCEFA3F8#32, 0x676F02D9#32, 0x8D2A4C8A#32 ]

/-- `K[32]` to `K[47]` (43_md5.md R131). -/
def md5K3 : List Word :=
  [ 0xFFFA3942#32, 0x8771F681#32, 0x6D9D6122#32, 0xFDE5380C#32,
    0xA4BEEA44#32, 0x4BDECFA9#32, 0xF6BB4B60#32, 0xBEBFBC70#32,
    0x289B7EC6#32, 0xEAA127FA#32, 0xD4EF3085#32, 0x04881D05#32,
    0xD9D4D039#32, 0xE6DB99E5#32, 0x1FA27CF8#32, 0xC4AC5665#32 ]

/-- `K[48]` to `K[63]` (43_md5.md R131). -/
def md5K4 : List Word :=
  [ 0xF4292244#32, 0x432AFF97#32, 0xAB9423A7#32, 0xFC93A039#32,
    0x655B59C3#32, 0x8F0CCC92#32, 0xFFEFF47D#32, 0x85845DD1#32,
    0x6FA87E4F#32, 0xFE2CE6E0#32, 0xA3014314#32, 0x4E0811A1#32,
    0xF7537E82#32, 0xBD3AF235#32, 0x2AD7D2BB#32, 0xEB86D391#32 ]

/-- The 64 step constants `K[0]` to `K[63]` (43_md5.md R131; 90_conflicts.md C1). -/
def md5K : List Word := md5K1 ++ md5K2 ++ md5K3 ++ md5K4

/-- `F(b, c, d)`, steps 0 to 15 (43_md5.md R132). -/
def md5F (b c d : Word) : Word := or32 (and32 b c) (and32 (not32 b) d)
/-- `G(b, c, d)`, steps 16 to 31 (43_md5.md R132). -/
def md5G (b c d : Word) : Word := or32 (and32 b d) (and32 c (not32 d))
/-- `H(b, c, d)`, steps 32 to 47 (43_md5.md R132). -/
def md5H (b c d : Word) : Word := xor32 (xor32 b c) d
/-- `I(b, c, d)`, steps 48 to 63 (43_md5.md R132). -/
def md5I (b c d : Word) : Word := xor32 c (or32 b (not32 d))

/-- The non-linear function of step `i` (43_md5.md R132). -/
def md5Function (i : Nat) (b c d : Word) : Word :=
  if i < 16 then md5F b c d
  else if i < 32 then md5G b c d
  else if i < 48 then md5H b c d
  else md5I b c d

/-- The four shift amounts of the round of step `i` (43_md5.md R133). -/
def md5RoundShifts (i : Nat) : List Nat :=
  if i < 16 then [7, 12, 17, 22]
  else if i < 32 then [5, 9, 14, 20]
  else if i < 48 then [4, 11, 16, 23]
  else [6, 10, 15, 21]

/-- The shift amount `S[i]` (43_md5.md R133). -/
def md5Shift (i : Nat) : Nat := (md5RoundShifts i)[i % 4]?.getD 0

/-- The message word index `g(i)` (43_md5.md R134). -/
def md5WordIndex (i : Nat) : Nat :=
  if i < 16 then i
  else if i < 32 then (5 * i + 1) % 16
  else if i < 48 then (3 * i + 5) % 16
  else (7 * i) % 16

/-- Word `i` of a list of words. The lists it is used on are long enough; past the end it gives zero. -/
def wordAt (words : List Word) (i : Nat) : Word := words[i]?.getD 0#32

/-- `Md5Step(i, (a, b, c, d), M)` (43_md5.md R135). -/
def md5Step (block : List Word) (x : Md5Acc) (i : Nat) : Md5Acc :=
  let t := add32 (add32 (add32 x.a (md5Function i x.b x.c x.d)) (wordAt md5K i)) (wordAt block (md5WordIndex i))
  { a := x.d, b := add32 x.b (rotl32 t (md5Shift i)), c := x.b, d := x.c }

/-- The working words after the first `n` steps (43_md5.md R136). -/
def md5Steps (block : List Word) (x : Md5Acc) (n : Nat) : Md5Acc := (List.range n).foldl (md5Step block) x

/-- The word-wise addition that ends a block (43_md5.md R136). -/
def md5AddAcc (x y : Md5Acc) : Md5Acc := ⟨add32 x.a y.a, add32 x.b y.b, add32 x.c y.c, add32 x.d y.d⟩

/-- `Md5Compress(acc, M)` (43_md5.md R136). -/
def md5Compress (acc : Md5Acc) (block : List Word) : Md5Acc :=
  md5AddAcc acc (md5Steps block acc Config.md5Steps)

/-- The number of zero octets between `0x80` and the length, `(55 - L) mod 64` (43_md5.md R137). -/
def padZeros (len : Nat) : Nat := (55 + (64 - len % 64)) % 64

/-- The number of blocks of a padded message of `len` octets (43_md5.md R137; 44_sha1.md R166). -/
def blockCount (len : Nat) : Nat := (len + 8) / 64 + 1

/-- The bit length `(8 * L) mod 2^64` (43_md5.md R137). -/
def bitLength (len : Nat) : Nat := (8 * len) % 2 ^ 64

/-- The 8 octets of a number below `2^64` in a byte order. -/
def lengthOctets (order : ByteOrder) (n : Nat) : List Octet :=
  (List.range 8).map fun m => BitVec.ofNat 8 (n / 256 ^ octetPlace order 8 m)

/-- The padded message: `msg || [0x80] || [0x00] * z || lenoct`, the two digests differing in the byte order of
the length alone (43_md5.md R137; 44_sha1.md R166). -/
def padMessage (order : ByteOrder) (msg : List Octet) : List Octet :=
  msg ++ 0x80#8 :: (List.replicate (padZeros msg.length) 0#8 ++ lengthOctets order (bitLength msg.length))

/-- `Md5Pad(msg)` (43_md5.md R137). -/
def md5Pad (msg : List Octet) : List Octet := padMessage .little msg

/-- Compress `n` blocks of 16 words one after another (43_md5.md R138). -/
def md5Blocks : Nat → Md5Acc → List Word → Md5Acc
  | 0, acc, _ => acc
  | n + 1, acc, words =>
    md5Blocks n (md5Compress acc (words.take Config.blockWords)) (words.drop Config.blockWords)

/-- The final accumulators of `Md5Digest(msg)` (43_md5.md R138). -/
def md5DigestAcc (msg : List Octet) : Md5Acc :=
  md5Blocks (blockCount msg.length) md5Iv (stringToWords .w32 .little (md5Pad msg))

/-- The 16 octets of a list of MD5 accumulators, little-endian (43_md5.md R138, R141). -/
def md5Octets (acc : Md5Acc) : List Octet := wordsToString .w32 .little acc.toList

/-- The 16 octets of `Md5Digest(msg)` (43_md5.md R138). -/
def md5Digest (msg : List Octet) : List Octet := md5Octets (md5DigestAcc msg)

/-- `MD5.INIT` (43_md5.md R139). -/
def execMd5Init (s : State) : Result := complete (s.writeMa md5Iv) 0

/-- `MD5.BLOCK widx` (43_md5.md R140). -/
def execMd5Block (widx : Operand) (s : State) : Result :=
  if s.wmemHas (operandNat widx) Config.blockWords then
    complete (s.writeMa (md5Compress s.ma (s.wmem.readRange (operandNat widx) Config.blockWords))) 0
  else raise .addressRange s

/-- `MD5.OUT dst` (43_md5.md R141). -/
def execMd5Out (dst : Operand) (s : State) : Result :=
  if s.bmemHas (operandNat dst) Config.md5OutOctets then
    complete (s.writeBmem (operandNat dst) (md5Octets s.ma)) 0
  else raise .addressRange s

/-- `MD5.DIGEST src, len, dst`: the whole source is read before anything is written (43_md5.md R142;
20_memory.md R49). -/
def execMd5Digest (src len dst : Operand) (s : State) : Result :=
  if s.bmemHas (operandNat src) (operandNat len) then
    if s.bmemHas (operandNat dst) Config.md5OutOctets then
      let acc := md5DigestAcc (s.bmem.readRange (operandNat src) (operandNat len))
      complete ((s.writeMa acc).writeBmem (operandNat dst) (md5Octets acc)) (blockCount (operandNat len))
    else raise .addressRange s
  else raise .addressRange s

end Sys2Proof.Machine
end

