-- ==== Sys2Proof/Machine/Sha1.lean ====
section
/-! DEFINITION. The SHA-1 unit: constants, schedule, compression function, padding, digest and the four
commands (spec/44_sha1.md R160 to R171). Constants and step formula are the spec's own, which the spec marks
as general knowledge and records as checked (notes/assumptions/16.md). -/

namespace Sys2Proof.Machine

/-- `SHA1_IV` (44_sha1.md R160). -/
def sha1Iv : Sha1Acc :=
  ⟨0x67452301#32, 0xEFCDAB89#32, 0x98BADCFE#32, 0x10325476#32, 0xC3D2E1F0#32⟩

/-- The additive constant `KS(t)` (44_sha1.md R161). -/
def sha1K (t : Nat) : Word :=
  if t < 20 then 0x5A827999#32
  else if t < 40 then 0x6ED9EBA1#32
  else if t < 60 then 0x8F1BBCDC#32
  else 0xCA62C1D6#32

/-- `(b & c) | (~b & d)`, steps 0 to 19 (44_sha1.md R162). -/
def sha1Choose (b c d : Word) : Word := or32 (and32 b c) (and32 (not32 b) d)
/-- `b ^ c ^ d`, steps 20 to 39 and 60 to 79 (44_sha1.md R162). -/
def sha1Parity (b c d : Word) : Word := xor32 (xor32 b c) d
/-- `(b & c) | (b & d) | (c & d)`, steps 40 to 59 (44_sha1.md R162). -/
def sha1Majority (b c d : Word) : Word := or32 (or32 (and32 b c) (and32 b d)) (and32 c d)

/-- The round function `fS(t, b, c, d)` (44_sha1.md R162). -/
def sha1Function (t : Nat) (b c d : Word) : Word :=
  if t < 20 then sha1Choose b c d
  else if t < 40 then sha1Parity b c d
  else if t < 60 then sha1Majority b c d
  else sha1Parity b c d

/-- One more schedule word on a schedule held newest word first: `W[t-3]` stands at place 2, `W[t-8]` at 7,
`W[t-14]` at 13, `W[t-16]` at 15 (44_sha1.md R163). -/
def sha1NextWord (newestFirst : List Word) : Word :=
  rotl32 (xor32 (xor32 (xor32 (wordAt newestFirst 2) (wordAt newestFirst 7)) (wordAt newestFirst 13))
    (wordAt newestFirst 15)) 1

/-- Extend a schedule, held newest word first, by `n` words. -/
def sha1Extend : Nat → List Word → List Word
  | 0, newestFirst => newestFirst
  | n + 1, newestFirst => sha1Extend n (sha1NextWord newestFirst :: newestFirst)

/-- `Sha1Schedule(M)`: the 80 words `W[0..79]` (44_sha1.md R163). -/
def sha1Schedule (block : List Word) : List Word :=
  (sha1Extend (Config.sha1Steps - Config.blockWords) block.reverse).reverse

/-- `Sha1Step(t, (a, b, c, d, e), W)` (44_sha1.md R164). -/
def sha1Step (schedule : List Word) (x : Sha1Acc) (t : Nat) : Sha1Acc :=
  let temp := add32 (add32 (add32 (add32 (rotl32 x.a 5) (sha1Function t x.b x.c x.d)) x.e)
    (wordAt schedule t)) (sha1K t)
  { a := temp, b := x.a, c := rotl32 x.b 30, d := x.c, e := x.d }

/-- The working words after the first `n` steps (44_sha1.md R165). -/
def sha1Steps (schedule : List Word) (x : Sha1Acc) (n : Nat) : Sha1Acc :=
  (List.range n).foldl (sha1Step schedule) x

/-- The word-wise addition that ends a block (44_sha1.md R165). -/
def sha1AddAcc (x y : Sha1Acc) : Sha1Acc :=
  ⟨add32 x.a y.a, add32 x.b y.b, add32 x.c y.c, add32 x.d y.d, add32 x.e y.e⟩

/-- `Sha1Compress(acc, M)` (44_sha1.md R165). -/
def sha1Compress (acc : Sha1Acc) (block : List Word) : Sha1Acc :=
  sha1AddAcc acc (sha1Steps (sha1Schedule block) acc Config.sha1Steps)

/-- `Sha1Pad(msg)`: as MD5's padding, the bit length most significant octet first (44_sha1.md R166). -/
def sha1Pad (msg : List Octet) : List Octet := padMessage .big msg

/-- Compress `n` blocks of 16 words one after another (44_sha1.md R167). -/
def sha1Blocks : Nat → Sha1Acc → List Word → Sha1Acc
  | 0, acc, _ => acc
  | n + 1, acc, words =>
    sha1Blocks n (sha1Compress acc (words.take Config.blockWords)) (words.drop Config.blockWords)

/-- The final accumulators of `Sha1Digest(msg)` (44_sha1.md R167). -/
def sha1DigestAcc (msg : List Octet) : Sha1Acc :=
  sha1Blocks (blockCount msg.length) sha1Iv (stringToWords .w32 .big (sha1Pad msg))

/-- The 20 octets of a list of SHA-1 accumulators, big-endian (44_sha1.md R167, R170). -/
def sha1Octets (acc : Sha1Acc) : List Octet := wordsToString .w32 .big acc.toList

/-- The 20 octets of `Sha1Digest(msg)` (44_sha1.md R167). -/
def sha1Digest (msg : List Octet) : List Octet := sha1Octets (sha1DigestAcc msg)

/-- `SHA1.INIT` (44_sha1.md R168). -/
def execSha1Init (s : State) : Result := complete (s.writeSh sha1Iv) 0

/-- `SHA1.BLOCK widx` (44_sha1.md R169). -/
def execSha1Block (widx : Operand) (s : State) : Result :=
  if s.wmemHas (operandNat widx) Config.blockWords then
    complete (s.writeSh (sha1Compress s.sh (s.wmem.readRange (operandNat widx) Config.blockWords))) 0
  else raise .addressRange s

/-- `SHA1.OUT dst`: all 20 octets are written (44_sha1.md R170). -/
def execSha1Out (dst : Operand) (s : State) : Result :=
  if s.bmemHas (operandNat dst) Config.sha1OutOctets then
    complete (s.writeBmem (operandNat dst) (sha1Octets s.sh)) 0
  else raise .addressRange s

/-- `SHA1.DIGEST src, len, dst`: the whole source is read before anything is written (44_sha1.md R171;
20_memory.md R49). -/
def execSha1Digest (src len dst : Operand) (s : State) : Result :=
  if s.bmemHas (operandNat src) (operandNat len) then
    if s.bmemHas (operandNat dst) Config.sha1OutOctets then
      let acc := sha1DigestAcc (s.bmem.readRange (operandNat src) (operandNat len))
      complete ((s.writeSh acc).writeBmem (operandNat dst) (sha1Octets acc)) (blockCount (operandNat len))
    else raise .addressRange s
  else raise .addressRange s

end Sys2Proof.Machine
end

