-- ==== Sys2Proof/Machine/Flags.lean ====
section
/-! DEFINITION. The core has no flags (spec/10_state.md R28). This file holds the "two quantities a processor
would keep as flags", which are response values here: the carries of the UI64 add and multiply and the digits
a rotate turns out. -/

namespace Sys2Proof.Machine

/-- The carry into digit `i` of `Ui64Add(x, y)`; at 8 it is the carry-out (40_ui64.md R82). -/
def addCarry (x y : Ui64) : Nat → Nat
  | 0 => 0
  | i + 1 => (digit x i + digit y i + addCarry x y i) / 256

/-- The carry into digit `i` of `Ui64MulN(x, n)`; at 8 it is the carry-out (40_ui64.md R84). -/
def mulCarry (x : Ui64) (n : Nat) : Nat → Nat
  | 0 => 0
  | i + 1 => (digit x i * n + mulCarry x n i) / 256

/-- The `k` digits rotated out, the first out the most significant: `sum of x[j] * 256^(k-1-j)`
(93_implementation_defined.md U7, `first_out_high`). -/
def digitSumHigh (x : Ui64) : Nat → Nat
  | 0 => 0
  | k + 1 => digitSumHigh x k * 256 + digit x k

/-- The integer the `k` rotated-out digits form (40_ui64.md R86; 93_implementation_defined.md U7). -/
def rotatedOut (order : RorOrder) (x : Ui64) (k : Nat) : Nat :=
  match order with
  | .firstOutLow => digitSum x k
  | .firstOutHigh => digitSumHigh x k

end Sys2Proof.Machine
end

