-- ==== Sys2Proof/Machine/Ui64.lean ====
section
/-! DEFINITION. The FixedWidthInteger (UI64) commands (spec/40_ui64.md R80 to R87). -/

namespace Sys2Proof.Machine

/-- `FromNumber(n)`: digit `i` is `floor(n / 256^i) mod 256`, for any `n` (40_ui64.md R80). -/
def fromNumber (n : Nat) : Ui64 := Vector.ofFn fun i : Fin 8 => BitVec.ofNat 8 (n / 256 ^ i.val)

/-- `Ui64Add(x, y)`: the sum digits and the carry-out (40_ui64.md R82). -/
def ui64Add (x y : Ui64) : Ui64 × Nat :=
  (Vector.ofFn fun i : Fin 8 => BitVec.ofNat 8 (digit x i + digit y i + addCarry x y i), addCarry x y 8)

/-- `Ui64MulN(x, n)`: the product digits and the carry-out, exact for every `n` (40_ui64.md R84). -/
def ui64MulN (x : Ui64) (n : Nat) : Ui64 × Nat :=
  (Vector.ofFn fun i : Fin 8 => BitVec.ofNat 8 (digit x i * n + mulCarry x n i), mulCarry x n 8)

/-- The digit that comes to place `i` when `k` whole digits leave at the bottom (40_ui64.md R86;
93_implementation_defined.md U7). -/
def rotatedDigit (fill : RorFill) (x : Ui64) (k i : Nat) : Nat :=
  match fill with
  | .rotate => digit x ((i + k) % 8)
  | .zero => if i + k ≤ 7 then digit x (i + k) else 0

/-- `Ui64Ror(x, bitCount)` with `k = bitCount / 8` (40_ui64.md R86; 93_implementation_defined.md U7). -/
def ui64Ror (params : Params) (x : Ui64) (bitCount : Nat) : Ui64 × Nat :=
  (Vector.ofFn fun i : Fin 8 => BitVec.ofNat 8 (rotatedDigit params.rorFill x (bitCount / 8) i),
   rotatedOut params.rorOrder x (bitCount / 8))

/-- `U64.LDN U<rd>, n` (40_ui64.md R81). -/
def execU64Ldn (rd : Reg) (n : Operand) (s : State) : Result :=
  complete (s.writeU rd (fromNumber n.toNat)) 0

/-- `U64.ADD U<rd>, U<rs>`: both registers are read before `U[rd]` is written (40_ui64.md R83). -/
def execU64Add (rd rs : Reg) (s : State) : Result :=
  let r := ui64Add (s.readU rd) (s.readU rs)
  complete (s.writeU rd r.1) r.2

/-- `U64.MULN U<rd>, n` (40_ui64.md R85). -/
def execU64Muln (rd : Reg) (n : Operand) (s : State) : Result :=
  if operandFits Config.mulnBits n then
    let r := ui64MulN (s.readU rd) n.toNat
    complete (s.writeU rd r.1) r.2
  else raise .illegalOperand s

/-- `U64.ROR U<rd>, bits`: granularity is tested first (40_ui64.md R87). -/
def execU64Ror (rd : Reg) (bits : Nat) (s : State) : Result :=
  if wholeDigits bits then
    if rotateInReach bits then
      let r := ui64Ror s.params (s.readU rd) bits
      complete (s.writeU rd r.1) r.2
    else raise .illegalOperand s
  else raise .rorGranularity s

end Sys2Proof.Machine
end

