-- ==== Sys2Proof/Machine/Dispatch.lean ====
section
/-! DEFINITION. What each instruction does: one arm per constructor, one meaning per arm
(spec/30_encoding.md R64). -/

namespace Sys2Proof.Machine

def exec (i : Instr) (s : State) : Host.Outcome State Fault Refusal :=
  match i with
  -- FixedWidthInteger (UI64), spec/40_ui64.md
  | .u64Ldn rd n => Sys2Proof.Machine.execU64Ldn rd n s
  | .u64Add rd rs => Sys2Proof.Machine.execU64Add rd rs s
  | .u64Muln rd n => Sys2Proof.Machine.execU64Muln rd n s
  | .u64Ror rd bits => Sys2Proof.Machine.execU64Ror rd bits s
  -- Byte/Word Codec, spec/42_codec.md
  | .cdcS2w width order src count dst => Sys2Proof.Machine.execCdcS2w width order src count dst s
  | .cdcW2s width order src count dst => Sys2Proof.Machine.execCdcW2s width order src count dst s
  -- MD5 Digest, spec/43_md5.md
  | .md5Init => Sys2Proof.Machine.execMd5Init s
  | .md5Block widx => Sys2Proof.Machine.execMd5Block widx s
  | .md5Out dst => Sys2Proof.Machine.execMd5Out dst s
  | .md5Digest src len dst => Sys2Proof.Machine.execMd5Digest src len dst s
  -- SHA-1 Digest, spec/44_sha1.md
  | .sha1Init => Sys2Proof.Machine.execSha1Init s
  | .sha1Block widx => Sys2Proof.Machine.execSha1Block widx s
  | .sha1Out dst => Sys2Proof.Machine.execSha1Out dst s
  | .sha1Digest src len dst => Sys2Proof.Machine.execSha1Digest src len dst s
  -- buffer access, spec/45_buffer_access.md
  | .bmWr addr octet => Sys2Proof.Machine.execBmWr addr octet s
  | .bmRd addr => Sys2Proof.Machine.execBmRd addr s
  | .wmWr idx word => Sys2Proof.Machine.execWmWr idx word s
  | .wmRd idx => Sys2Proof.Machine.execWmRd idx s

end Sys2Proof.Machine
end

