-- ==== Sys2Proof/Machine/Step.lean ====
section
/-! DEFINITION. One step of the machine (spec/00_scope.md R10; spec/70_reset_and_hazards.md R220, R222): take
the next event of the outside; a packet is decoded, checked and executed, a reset is applied. With no event
the core is idle and all state survives (spec/60_exceptions.md R211; notes/assumptions/7.md). -/

namespace Sys2Proof.Machine

/-- Execute one packet: a packet that is no command raises `IllegalCommand`, and no operand of it is looked
at (60_exceptions.md R203). -/
def runPacket (p : Packet) (s : State) : Host.Outcome State Fault Refusal :=
  match decode p with
  | .ok i => exec i s
  | .error _ => raise .illegalCommand s

/-- `step(state, packet) = (state', response)` (00_scope.md R10), the packet and the response standing in the
state's interface fields. -/
def step (s : State) : Host.Outcome State Fault Refusal :=
  match s.inbox with
  | [] => .next s
  | .reset values :: rest => .next (applyReset values { s with inbox := rest })
  | .packet p :: rest => runPacket p { s with inbox := rest }

/-- The host presents the packet of the `nbits`-bit word `w` as the very next one. Nothing is fetched
(10_state.md R27), so this is all that running it takes (notes/assumptions/9.md). -/
def State.withFetchWord (s : State) (nbits w : Nat) : State :=
  { s with inbox := .packet (packetOfBits nbits w) :: s.inbox }

end Sys2Proof.Machine
end

