-- ==== Sys2Proof/Machine/Assembler.lean ====
section
/-! DEFINITION. The assembler notation and the pseudo-commands (spec/30_encoding.md R71, R72). No meaning of a
command rests on this file. -/

namespace Sys2Proof.Machine

/-- A register operand, `U<rd>` (30_encoding.md R71). -/
def asmReg (r : Reg) : String := "U" ++ toString r.val

/-- A number, in decimal (30_encoding.md R71; DESIGN CHOICE of the radix, notes/assumptions/17.md). -/
def asmOperand (x : Operand) : String := toString x.toNat

/-- A byte order, `LE` or `BE` (30_encoding.md R71). -/
def asmOrder : ByteOrder → String
  | .little => "LE"
  | .big => "BE"

/-- A mnemonic and its operands, separated as in 30_encoding.md R71. -/
def asmLine (mnemonic : String) (operands : List String) : String :=
  if operands.isEmpty then mnemonic else mnemonic ++ " " ++ String.intercalate ", " operands

/-- The mnemonic of an instruction (30_encoding.md R64). -/
def mnemonicOf : Instr → String
  | .u64Ldn _ _ => "U64.LDN"
  | .u64Add _ _ => "U64.ADD"
  | .u64Muln _ _ => "U64.MULN"
  | .u64Ror _ _ => "U64.ROR"
  | .cdcS2w _ _ _ _ _ => "CDC.S2W"
  | .cdcW2s _ _ _ _ _ => "CDC.W2S"
  | .md5Init => "MD5.INIT"
  | .md5Block _ => "MD5.BLOCK"
  | .md5Out _ => "MD5.OUT"
  | .md5Digest _ _ _ => "MD5.DIGEST"
  | .sha1Init => "SHA1.INIT"
  | .sha1Block _ => "SHA1.BLOCK"
  | .sha1Out _ => "SHA1.OUT"
  | .sha1Digest _ _ _ => "SHA1.DIGEST"
  | .bmWr _ _ => "BM.WR"
  | .bmRd _ => "BM.RD"
  | .wmWr _ _ => "WM.WR"
  | .wmRd _ => "WM.RD"

/-- The operands of an instruction, in the order of 30_encoding.md R71. -/
def asmOperands : Instr → List String
  | .u64Ldn rd n => [asmReg rd, asmOperand n]
  | .u64Add rd rs => [asmReg rd, asmReg rs]
  | .u64Muln rd n => [asmReg rd, asmOperand n]
  | .u64Ror rd bits => [asmReg rd, toString bits]
  | .cdcS2w w o src count dst =>
    [toString (bitsOfWidth w), asmOrder o, asmOperand src, asmOperand count, asmOperand dst]
  | .cdcW2s w o src count dst =>
    [toString (bitsOfWidth w), asmOrder o, asmOperand src, asmOperand count, asmOperand dst]
  | .md5Init => []
  | .md5Block widx => [asmOperand widx]
  | .md5Out dst => [asmOperand dst]
  | .md5Digest src len dst => [asmOperand src, asmOperand len, asmOperand dst]
  | .sha1Init => []
  | .sha1Block widx => [asmOperand widx]
  | .sha1Out dst => [asmOperand dst]
  | .sha1Digest src len dst => [asmOperand src, asmOperand len, asmOperand dst]
  | .bmWr addr octet => [asmOperand addr, asmOperand octet]
  | .bmRd addr => [asmOperand addr]
  | .wmWr idx word => [asmOperand idx, asmOperand word]
  | .wmRd idx => [asmOperand idx]

/-- The line of an instruction (30_encoding.md R71), a rotate amount above 127 written as it stands
(notes/assumptions/19.md). -/
def assemble (i : Instr) : String := asmLine (mnemonicOf i) (asmOperands i)

/-- `U64.RDV U<rd>` (30_encoding.md R72). -/
def pseudoRdv (rd : Reg) : List Instr := [.u64Ror rd 64]

/-- `BM.WRS <addr>, <o0> <o1> ...`: lowest address first (30_encoding.md R72). DESIGN CHOICE where `<addr>+j`
reaches `2^64`, which `OPA` cannot hold: the address is taken modulo `2^64` (notes/assumptions/18.md). -/
def pseudoWrs : Nat → List Octet → List Instr
  | _, [] => []
  | addr, o :: rest => .bmWr (BitVec.ofNat 64 addr) (BitVec.ofNat 64 o.toNat) :: pseudoWrs (addr + 1) rest

/-- `BM.RDS <addr>, <k>` (30_encoding.md R72). DESIGN CHOICE where `<addr>+j` reaches `2^64`: the address is taken
modulo `2^64` (notes/assumptions/18.md). -/
def pseudoRds (addr : Nat) : Nat → List Instr
  | 0 => []
  | k + 1 => .bmRd (BitVec.ofNat 64 addr) :: pseudoRds (addr + 1) k

/-- The host presents the packets of a list of instructions, first to last, before whatever it presents next
(10_state.md R27; 30_encoding.md R70). Instructions that are not well formed are encoded as `encode` says
(notes/assumptions/19.md). -/
def State.present (s : State) (program : List Instr) : State :=
  { s with inbox := program.map (fun i => .packet (encode i)) ++ s.inbox }

end Sys2Proof.Machine
end

