-- ==== Sys2Proof/Safety.lean ====
section
/-! DEFINITION. What counts as a sound state and a safe run, in the terms the statements use. -/

namespace Sys2Proof

open Sys2Proof.Machine

/-- The architectural state of the core: the five pieces of 10_state.md R20 to R26 agree. -/
abbrev SameCore (s t : State) : Prop :=
  t.u = s.u ∧ t.ma = s.ma ∧ t.sh = s.sh ∧ t.bmem = s.bmem ∧ t.wmem = s.wmem

/-- A response that reports a fault carries `RES = 0` (30_encoding.md R61; 60_exceptions.md R202). -/
abbrev ResponseSound (r : Option Response) : Prop :=
  match r with
  | none => True
  | some x => x.status ≠ .ok → x.res = 0#64

/-- The invariant of the machine: the sizes meet the constraints of 00_scope.md R8, both memories are in
canonical form and list no cell outside themselves, and the response in the port is one the core can give. -/
structure Inv (s : State) : Prop where
  params_ok       : s.params.Ok
  bmem_canonical  : s.bmem.wf
  bmem_inside     : s.bmem.inside s.params.bmemBytes
  wmem_canonical  : s.wmem.wf
  wmem_inside     : s.wmem.inside s.params.wmemWords
  response_sound  : ResponseSound s.response

/-- Executing the one packet has the same effect as executing the other, in every state. -/
abbrev SameEffect (p q : Packet) : Prop :=
  ∀ (s : State) (rest : List HostEvent),
    step { s with inbox := .packet p :: rest } = step { s with inbox := .packet q :: rest }

/-- Execute commands one after another, each on the state the one before left (20_memory.md R52). -/
def execAll : List Instr → State → Result
  | [], s => .next s
  | i :: rest, s =>
    match exec i s with
    | .next t => execAll rest t
    | .fault r => .fault r
    | .refused r => .refused r

/-- The commands that read or write the UI64 registers (10_state.md R22). -/
def usesU : Instr → Bool
  | .u64Ldn _ _ | .u64Add _ _ | .u64Muln _ _ | .u64Ror _ _ => true
  | .cdcS2w _ _ _ _ _ | .cdcW2s _ _ _ _ _ => false
  | .md5Init | .md5Block _ | .md5Out _ | .md5Digest _ _ _ => false
  | .sha1Init | .sha1Block _ | .sha1Out _ | .sha1Digest _ _ _ => false
  | .bmWr _ _ | .bmRd _ | .wmWr _ _ | .wmRd _ => false

/-- The commands that read or write the MD5 accumulators (10_state.md R23). -/
def usesMa : Instr → Bool
  | .u64Ldn _ _ | .u64Add _ _ | .u64Muln _ _ | .u64Ror _ _ => false
  | .cdcS2w _ _ _ _ _ | .cdcW2s _ _ _ _ _ => false
  | .md5Init | .md5Block _ | .md5Out _ | .md5Digest _ _ _ => true
  | .sha1Init | .sha1Block _ | .sha1Out _ | .sha1Digest _ _ _ => false
  | .bmWr _ _ | .bmRd _ | .wmWr _ _ | .wmRd _ => false

/-- The commands that read or write the SHA-1 accumulators (10_state.md R24). -/
def usesSh : Instr → Bool
  | .u64Ldn _ _ | .u64Add _ _ | .u64Muln _ _ | .u64Ror _ _ => false
  | .cdcS2w _ _ _ _ _ | .cdcW2s _ _ _ _ _ => false
  | .md5Init | .md5Block _ | .md5Out _ | .md5Digest _ _ _ => false
  | .sha1Init | .sha1Block _ | .sha1Out _ | .sha1Digest _ _ _ => true
  | .bmWr _ _ | .bmRd _ | .wmWr _ _ | .wmRd _ => false

/-- The commands that read or write BMEM (10_state.md R25). -/
def usesBmem : Instr → Bool
  | .u64Ldn _ _ | .u64Add _ _ | .u64Muln _ _ | .u64Ror _ _ => false
  | .cdcS2w _ _ _ _ _ | .cdcW2s _ _ _ _ _ => true
  | .md5Out _ | .md5Digest _ _ _ | .sha1Out _ | .sha1Digest _ _ _ => true
  | .md5Init | .md5Block _ | .sha1Init | .sha1Block _ => false
  | .bmWr _ _ | .bmRd _ => true
  | .wmWr _ _ | .wmRd _ => false

/-- The commands that read or write WMEM (10_state.md R26). -/
def usesWmem : Instr → Bool
  | .u64Ldn _ _ | .u64Add _ _ | .u64Muln _ _ | .u64Ror _ _ => false
  | .cdcS2w _ _ _ _ _ | .cdcW2s _ _ _ _ _ => true
  | .md5Block _ | .sha1Block _ => true
  | .md5Init | .md5Out _ | .md5Digest _ _ _ | .sha1Init | .sha1Out _ | .sha1Digest _ _ _ => false
  | .bmWr _ _ | .bmRd _ => false
  | .wmWr _ _ | .wmRd _ => true

/-- The faults a command can raise once it has decoded (60_exceptions.md R201; `IllegalCommand` belongs to the
decode). -/
def mayRaise : Instr → Status → Bool
  | .u64Ldn _ _, _ | .u64Add _ _, _ | .md5Init, _ | .sha1Init, _ => false
  | .u64Muln _ _, f => f == .illegalOperand
  | .u64Ror _ _, f => f == .illegalOperand || f == .rorGranularity
  | .cdcS2w _ _ _ _ _, f | .cdcW2s _ _ _ _ _, f => f == .addressRange
  | .md5Block _, f | .md5Out _, f | .md5Digest _ _ _, f => f == .addressRange
  | .sha1Block _, f | .sha1Out _, f | .sha1Digest _ _ _, f => f == .addressRange
  | .bmWr _ _, f | .wmWr _ _, f => f == .illegalOperand || f == .addressRange
  | .bmRd _, f | .wmRd _, f => f == .addressRange

/-- A run of `k` steps that meets no fault and no refusal. -/
def SafeRun (k : Nat) (s : State) : Prop := ∃ t, Sys2Proof.core.run k s = .next t

end Sys2Proof
end

