-- ==== Sys2Proof/Certificates/Slice0/Obligations.lean ====
section
/-! DEFINITION. The statements for the provers. Each docstring names the rule of spec/ it formalises. In every
statement about an instruction the next state is written as the old one with the fields it changes, so that
the rest of the equality is the instruction's frame. -/

open Sys2Proof Sys2Proof.Machine

/-! ### The machine as a whole -/

/-- The state after reset meets the invariant. It rests on the model's reset values (log 1, 3, 4). -/
def Obligations.ResetMeetsInvariant : Prop := Inv State.reset

/-- Every step keeps the invariant: sizes in their constraints (00_scope.md R8), canonical memories that list
nothing outside themselves (10_state.md R25, R26; 20_memory.md R46), a sound response (30_encoding.md R61). -/
def Obligations.StepKeepsInvariant : Prop :=
  ∀ s t : State, Inv s → step s = .next t → Inv t

/-- A packet that decodes to `i` is taken from the input and `i` is executed (00_scope.md R10). -/
def Obligations.StepRunsDecodedCommand : Prop :=
  ∀ (s : State) (p : Packet) (rest : List HostEvent) (i : Instr),
    s.inbox = .packet p :: rest → decode p = .ok i → step s = exec i { s with inbox := rest }

/-- Every packet is answered: the command terminates, the packet is consumed, a response stands in the port
(30_encoding.md R61; 70_reset_and_hazards.md R228). -/
def Obligations.EveryPacketIsAnswered : Prop :=
  ∀ (s : State) (p : Packet) (rest : List HostEvent), s.inbox = .packet p :: rest →
    ∃ (t : State) (status : Status) (res : Operand),
      step s = .next t ∧ t.inbox = rest ∧ t.params = s.params ∧ t.response = some ⟨status, res⟩

/-- No run of any length meets a fault or a refusal of the machine. That every command terminates and a fault lets
the next packet execute is 70_reset_and_hazards.md R228 and 60_exceptions.md R206; that every fault is a next state
of the machine is DEDUCED from them (log 12), and that a run longer than the inbox goes on, idle, is the model's
choice (log 7). -/
def Obligations.EveryRunIsSafe : Prop := ∀ (k : Nat) (s : State), SafeRun k s

/-- The fault response (60_exceptions.md R202): `(code, 0)`, and the state after is the state before in every
register and cell, with nothing recorded anywhere. -/
def Obligations.FaultResponseChangesNothing : Prop :=
  ∀ (s t : State) (p : Packet) (rest : List HostEvent) (r : Response),
    s.inbox = .packet p :: rest → step s = .next t → t.response = some r → r.status ≠ .ok →
      t = { s with inbox := rest, response := some ⟨r.status, 0#64⟩ }

/-- A faulting packet leaves no trace: the next event is taken as if the packet had never been sent. Where that
event is a packet this is 60_exceptions.md R206. Where it is a reset, the two states agree in the response port only
because the model empties it, its own choice (log 8). -/
def Obligations.FaultingPacketLeavesNoTrace : Prop :=
  ∀ (s t : State) (p : Packet) (e : HostEvent) (rest : List HostEvent) (r : Response),
    s.inbox = .packet p :: e :: rest → step s = .next t → t.response = some r → r.status ≠ .ok →
      step t = step { s with inbox := e :: rest }

/-- A command raises no fault outside its row, and `IllegalCommand` never after the decode
(60_exceptions.md R201). -/
def Obligations.CommandsRaiseOnlyTheirFaults : Prop :=
  ∀ (i : Instr) (s : State), ∃ (t : State) (r : Response),
    exec i s = .next t ∧ t.response = some r ∧ r.status ≠ .illegalCommand ∧
      (r.status ≠ .ok → mayRaise i r.status = true)

/-- A reset between two packets: every piece of state holds the values the event brings, the events to come and
the parameters stay. A canonical memory that lies inside is taken over as it is (70_reset_and_hazards.md R220;
10_state.md R33; log 8). -/
def Obligations.ResetEventLoadsItsValues : Prop :=
  ∀ (s : State) (v : ResetValues) (rest : List HostEvent), s.inbox = .reset v :: rest →
    ∃ (bm : Memory 8) (wm : Memory 32),
      step s = .next { s with u := v.u, ma := v.ma, sh := v.sh, bmem := bm, wmem := wm, inbox := rest,
                              response := none } ∧
      (v.bmem.wf → v.bmem.inside s.params.bmemBytes → bm = v.bmem) ∧
      (v.wmem.wf → v.wmem.inside s.params.wmemWords → wm = v.wmem)

/-! ### Who touches what -/

/-- No command but the four UI64 ones reads or writes the UI64 registers: with any other contents of U it does
the same and leaves them (10_state.md R22). -/
def Obligations.OnlyUi64CommandsTouchU : Prop :=
  ∀ (i : Instr) (s t : State) (v : Vector Ui64 4), usesU i = false → exec i s = .next t →
    exec i { s with u := v } = .next { t with u := v }

/-- No command but the four MD5 ones reads or writes MA, none but the four SHA-1 ones SH: no MD5 command changes
SH, no SHA-1 command changes MA (10_state.md R23, R24; 70_reset_and_hazards.md R226). -/
def Obligations.OnlyDigestCommandsTouchTheirAccumulators : Prop :=
  ∀ (i : Instr) (s t : State), exec i s = .next t →
    (usesMa i = false → ∀ v : Md5Acc, exec i { s with ma := v } = .next { t with ma := v }) ∧
    (usesSh i = false → ∀ v : Sha1Acc, exec i { s with sh := v } = .next { t with sh := v })

/-- No command outside the list of 10_state.md R25 reads or writes BMEM, none outside the list of R26 WMEM. -/
def Obligations.OnlyListedCommandsTouchTheMemories : Prop :=
  ∀ (i : Instr) (s t : State), exec i s = .next t →
    (usesBmem i = false → ∀ v : Memory 8, exec i { s with bmem := v } = .next { t with bmem := v }) ∧
    (usesWmem i = false → ∀ v : Memory 32, exec i { s with wmem := v } = .next { t with wmem := v })

/-! ### Encoding -/

/-- Every command is a (match, mask) pair: a packet whose `CMD` shows the match of a row under its mask decodes to
that command with the fields and operands the rules name, and one whose `CMD` shows no row's match is no command,
raises `IllegalCommand` and changes nothing (30_encoding.md R63, with the map of R64 and the fields of R62 and
R66). -/
def Obligations.OpcodeMapSelectsCommands : Prop :=
  ∀ p : Packet,
    (p.cmd &&& 0xFFFFFCFF#32 = 0x10#32 ↔
      ∃ rd : Reg, rd.val = p.cmd.toNat / 2 ^ 8 % 4 ∧ decode p = .ok (.u64Ldn rd p.opA)) ∧
    (p.cmd &&& 0xFFFFF0FF#32 = 0x11#32 ↔
      ∃ rd rs : Reg, rd.val = p.cmd.toNat / 2 ^ 8 % 4 ∧ rs.val = p.cmd.toNat / 2 ^ 10 % 4 ∧
        decode p = .ok (.u64Add rd rs)) ∧
    (p.cmd &&& 0xFFFFFCFF#32 = 0x12#32 ↔
      ∃ rd : Reg, rd.val = p.cmd.toNat / 2 ^ 8 % 4 ∧ decode p = .ok (.u64Muln rd p.opA)) ∧
    (p.cmd &&& 0xFFC07CFF#32 = 0x13#32 ↔
      ∃ rd : Reg, rd.val = p.cmd.toNat / 2 ^ 8 % 4 ∧
        decode p = .ok (.u64Ror rd (p.cmd.toNat / 2 ^ 15 % 128))) ∧
    (p.cmd &&& 0xFFFF8FFF#32 = 0x20#32 ↔
      ∃ (w : Width) (o : ByteOrder), octetsPerWord w = p.cmd.toNat / 2 ^ 12 % 4 + 1 ∧
        (o = .big ↔ p.cmd.toNat / 2 ^ 14 % 2 = 1) ∧ decode p = .ok (.cdcS2w w o p.opA p.opB p.opC)) ∧
    (p.cmd &&& 0xFFFF8FFF#32 = 0x21#32 ↔
      ∃ (w : Width) (o : ByteOrder), octetsPerWord w = p.cmd.toNat / 2 ^ 12 % 4 + 1 ∧
        (o = .big ↔ p.cmd.toNat / 2 ^ 14 % 2 = 1) ∧ decode p = .ok (.cdcW2s w o p.opA p.opB p.opC)) ∧
    (p.cmd &&& 0xFFFFFFFF#32 = 0x30#32 ↔ decode p = .ok .md5Init) ∧
    (p.cmd &&& 0xFFFFFFFF#32 = 0x31#32 ↔ decode p = .ok (.md5Block p.opA)) ∧
    (p.cmd &&& 0xFFFFFFFF#32 = 0x32#32 ↔ decode p = .ok (.md5Out p.opA)) ∧
    (p.cmd &&& 0xFFFFFFFF#32 = 0x33#32 ↔ decode p = .ok (.md5Digest p.opA p.opB p.opC)) ∧
    (p.cmd &&& 0xFFFFFFFF#32 = 0x40#32 ↔ decode p = .ok .sha1Init) ∧
    (p.cmd &&& 0xFFFFFFFF#32 = 0x41#32 ↔ decode p = .ok (.sha1Block p.opA)) ∧
    (p.cmd &&& 0xFFFFFFFF#32 = 0x42#32 ↔ decode p = .ok (.sha1Out p.opA)) ∧
    (p.cmd &&& 0xFFFFFFFF#32 = 0x43#32 ↔ decode p = .ok (.sha1Digest p.opA p.opB p.opC)) ∧
    (p.cmd &&& 0xFFFFFFFF#32 = 0x50#32 ↔ decode p = .ok (.bmWr p.opA p.opB)) ∧
    (p.cmd &&& 0xFFFFFFFF#32 = 0x51#32 ↔ decode p = .ok (.bmRd p.opA)) ∧
    (p.cmd &&& 0xFFFFFFFF#32 = 0x52#32 ↔ decode p = .ok (.wmWr p.opA p.opB)) ∧
    (p.cmd &&& 0xFFFFFFFF#32 = 0x53#32 ↔ decode p = .ok (.wmRd p.opA)) ∧
    ((∀ row ∈ [
        (0xFFFFFCFF#32, 0x10#32), (0xFFFFF0FF#32, 0x11#32), (0xFFFFFCFF#32, 0x12#32), (0xFFC07CFF#32, 0x13#32),
        (0xFFFF8FFF#32, 0x20#32), (0xFFFF8FFF#32, 0x21#32), (0xFFFFFFFF#32, 0x30#32), (0xFFFFFFFF#32, 0x31#32),
        (0xFFFFFFFF#32, 0x32#32), (0xFFFFFFFF#32, 0x33#32), (0xFFFFFFFF#32, 0x40#32), (0xFFFFFFFF#32, 0x41#32),
        (0xFFFFFFFF#32, 0x42#32), (0xFFFFFFFF#32, 0x43#32), (0xFFFFFFFF#32, 0x50#32), (0xFFFFFFFF#32, 0x51#32),
        (0xFFFFFFFF#32, 0x52#32), (0xFFFFFFFF#32, 0x53#32)],
        p.cmd &&& row.1 ≠ row.2) →
      (∀ i : Instr, decode p ≠ .ok i) ∧
      ∀ (s : State) (rest : List HostEvent), s.inbox = .packet p :: rest →
        step s = .next { s with inbox := rest, response := some ⟨.illegalCommand, 0#64⟩ })

/-- Command words written out in 95_test_vectors.md V7, V3, P1, P2 and P3, every family among them, and what they
decode to. That the zero word decodes to nothing is V7; the name `unknownOpcode` of its rejection is the model's
choice (log 11). -/
def Obligations.DecodeOfWrittenWords : Prop :=
  decode ⟨0x00000310#32, 5, 0, 0⟩ = .ok (.u64Ldn 3 5) ∧
  decode ⟨0x00000811#32, 0, 0, 0⟩ = .ok (.u64Add 0 2) ∧
  decode ⟨0x00040013#32, 0, 0, 0⟩ = .ok (.u64Ror 0 8) ∧
  decode ⟨0x00007020#32, 0, 5, 0⟩ = .ok (.cdcS2w .w32 .big 0 5 0) ∧
  decode ⟨0x00000033#32, 0, 19, 256⟩ = .ok (.md5Digest 0 19 256) ∧
  decode ⟨0x00000042#32, 256, 0, 0⟩ = .ok (.sha1Out 256) ∧
  decode ⟨0x00000050#32, 1, 0xA7, 0⟩ = .ok (.bmWr 1 0xA7) ∧
  decode ⟨0x00000000#32, 0, 0, 0⟩ = .error .unknownOpcode

/-- Decoding the encoding of a well-formed instruction gives it back, with every operand at every value
(30_encoding.md R62 to R66). -/
def Obligations.DecodeOfEncodeIsIdentity : Prop :=
  ∀ i : Instr, i.wellFormed = true → decode (encode i) = .ok i

/-- A packet that decodes gives a well-formed instruction, whose encoding has the packet's command word
(30_encoding.md R63; 92_eei_decisions.md D19: no aliases). -/
def Obligations.EncodeOfDecodeRestoresTheWord : Prop :=
  ∀ (p : Packet) (i : Instr), decode p = .ok i →
    i.wellFormed = true ∧ (encode i).cmd = p.cmd ∧ SameEffect (encode i) p

/-- Of the `2^32` command words exactly 564 are legal (95_test_vectors.md V7). -/
def Obligations.LegalCommandWordsNumber564 : Prop :=
  ∃ l : List (BitVec 32), l.Nodup ∧ l.length = 564 ∧
    ∀ c : BitVec 32, c ∈ l ↔ ∃ i : Instr, decode ⟨c, 0, 0, 0⟩ = .ok i

/-- An operand a command does not use is ignored, whatever its value (30_encoding.md R60, R65). -/
def Obligations.UnusedOperandsHaveNoEffect : Prop :=
  ∀ (p : Packet) (a b c : Operand),
    (p.cmd &&& 0xFF#32 ∈ [0x11#32, 0x13#32, 0x30#32, 0x40#32] → SameEffect p ⟨p.cmd, a, b, c⟩) ∧
    (p.cmd &&& 0xFF#32 ∈ [0x10#32, 0x12#32, 0x31#32, 0x32#32, 0x41#32, 0x42#32, 0x51#32, 0x53#32] →
      SameEffect p ⟨p.cmd, p.opA, b, c⟩) ∧
    (p.cmd &&& 0xFF#32 ∈ [0x50#32, 0x52#32] → SameEffect p ⟨p.cmd, p.opA, p.opB, c⟩)

/-! ### FixedWidthInteger (UI64) -/

/-- `FromNumber(n)` for every `n` (40_ui64.md R80). -/
def Obligations.FromNumberDropsBeyond64Bits : Prop :=
  ∀ n : Nat, (∀ i : Nat, i < 8 → digit (fromNumber n) i = n / 256 ^ i % 256) ∧
    val (fromNumber n) = n % 2 ^ 64

/-- `Ui64Add(x, y)` digit by digit, and its closed form (40_ui64.md R82). -/
def Obligations.Ui64AddCarriesThroughAllDigits : Prop :=
  ∀ x y : Ui64, ∃ c : Nat → Nat,
    c 0 = 0 ∧
    (∀ i : Nat, i < 8 →
      digit (ui64Add x y).1 i = (digit x i + digit y i + c i) % 256 ∧
      c (i + 1) = (digit x i + digit y i + c i) / 256) ∧
    (ui64Add x y).2 = c 8 ∧ (ui64Add x y).2 ≤ 1 ∧
    val (ui64Add x y).1 = (val x + val y) % 2 ^ 64 ∧
    val x + val y = val (ui64Add x y).1 + (ui64Add x y).2 * 2 ^ 64

/-- `Ui64MulN(x, n)` digit by digit for every `n`, its closed form and its bounds (40_ui64.md R84). -/
def Obligations.Ui64MulNIsExactForEveryScalar : Prop :=
  ∀ (x : Ui64) (n : Nat), ∃ c : Nat → Nat,
    c 0 = 0 ∧
    (∀ i : Nat, i < 8 →
      digit (ui64MulN x n).1 i = (digit x i * n + c i) % 256 ∧
      c (i + 1) = (digit x i * n + c i) / 256) ∧
    (ui64MulN x n).2 = c 8 ∧
    val (ui64MulN x n).1 = val x * n % 2 ^ 64 ∧
    val x * n = val (ui64MulN x n).1 + (ui64MulN x n).2 * 2 ^ 64 ∧
    ∀ w : Nat, n < 2 ^ w → ∀ i : Nat, i ≤ 8 → c i < 2 ^ w

/-- `U64.LDN` completes in every state: `U[rd]` holds the operand, `RES` is 0, nothing else changes
(40_ui64.md R81). -/
def Obligations.LdnLoadsTheOperand : Prop :=
  ∀ (rd : Reg) (n : Operand) (s : State), ∃ x : Ui64,
    exec (.u64Ldn rd n) s = .next { s with u := s.u.set rd x, response := some ⟨.ok, 0#64⟩ } ∧
    val x = n.toNat

/-- `U64.ADD` completes in every state: `U[rd]` holds the sum modulo `2^64`, `RES` is the carry-out, nothing
else changes; `rd = rs` is no exception (40_ui64.md R83). -/
def Obligations.AddReturnsSumAndCarry : Prop :=
  ∀ (rd rs : Reg) (s : State), ∃ (x : Ui64) (res : Operand),
    exec (.u64Add rd rs) s = .next { s with u := s.u.set rd x, response := some ⟨.ok, res⟩ } ∧
    val x = (val s.u[rd] + val s.u[rs]) % 2 ^ 64 ∧
    res.toNat = (val s.u[rd] + val s.u[rs]) / 2 ^ 64

/-- `U64.MULN` completes for every scalar below `2^32`: product modulo `2^64`, carry-out in `RES`, nothing else
changes; a wider scalar is an `IllegalOperand` (40_ui64.md R85). -/
def Obligations.MulnScalesOrRefusesWideScalar : Prop :=
  ∀ (rd : Reg) (n : Operand) (s : State),
    (n.toNat < 2 ^ 32 → ∃ (x : Ui64) (res : Operand),
      exec (.u64Muln rd n) s = .next { s with u := s.u.set rd x, response := some ⟨.ok, res⟩ } ∧
      val x = val s.u[rd] * n.toNat % 2 ^ 64 ∧
      res.toNat = val s.u[rd] * n.toNat / 2 ^ 64 ∧ res.toNat < 2 ^ 32) ∧
    (2 ^ 32 ≤ n.toNat →
      exec (.u64Muln rd n) s = .next { s with response := some ⟨.illegalOperand, 0#64⟩ })

/-- `U64.ROR` completes for the amounts 0, 8, ..., 64, under all four settings of the two parameters, and
refuses the others, granularity first (40_ui64.md R86, R87; 93_implementation_defined.md U7). -/
def Obligations.RorRotatesWholeDigitsOrRefuses : Prop :=
  ∀ (rd : Reg) (bits : Nat) (s : State),
    (bits % 8 = 0 → bits ≤ 64 → ∃ (x : Ui64) (res : Operand),
      exec (.u64Ror rd bits) s = .next { s with u := s.u.set rd x, response := some ⟨.ok, res⟩ } ∧
      (s.params.rorFill = .rotate →
        (∀ i : Nat, i < 8 → digit x i = digit s.u[rd] ((i + bits / 8) % 8)) ∧
        val x = val s.u[rd] / 2 ^ bits + val s.u[rd] % 2 ^ bits * 2 ^ (64 - bits)) ∧
      (s.params.rorFill = .zero → val x = val s.u[rd] / 2 ^ bits) ∧
      (s.params.rorOrder = .firstOutLow → res.toNat = val s.u[rd] % 2 ^ bits) ∧
      (s.params.rorOrder = .firstOutHigh →
        res.toNat = ((List.range (bits / 8)).map fun j =>
          digit s.u[rd] j * 256 ^ (bits / 8 - 1 - j)).sum)) ∧
    (bits % 8 ≠ 0 →
      exec (.u64Ror rd bits) s = .next { s with response := some ⟨.rorGranularity, 0#64⟩ }) ∧
    (bits % 8 = 0 → 64 < bits →
      exec (.u64Ror rd bits) s = .next { s with response := some ⟨.illegalOperand, 0#64⟩ })

/-- The pseudo-command `U64.RDV`: with the normative setting it returns `val(U[rd])` and leaves every register as
it was (30_encoding.md R72; 40_ui64.md R87). -/
def Obligations.RdvReadsTheRegister : Prop :=
  ∀ (rd : Reg) (s : State), s.params.RorNormative →
    execAll (pseudoRdv rd) s =
      .next { s with response := some ⟨.ok, BitVec.ofNat 64 (val s.u[rd])⟩ }

/-- Eight successive `U64.ROR U<rd>, 8` return the digits from least to most significant under every setting;
with `rotate` they leave the register as it was, with `zero` they leave it zero (40_ui64.md R87;
93_implementation_defined.md U7). -/
def Obligations.EightRotationsReturnTheDigits : Prop :=
  ∀ (rd : Reg) (s : State) (k : Nat), k < 8 → ∃ t : State,
    execAll (List.replicate (k + 1) (.u64Ror rd 8)) s = .next t ∧
    t.response = some ⟨.ok, BitVec.ofNat 64 (digit s.u[rd] k)⟩ ∧
    (k = 7 → s.params.rorFill = .rotate → t.u = s.u) ∧
    (k = 7 → s.params.rorFill = .zero → val t.u[rd] = 0)

/-! ### Word arithmetic (UI32) -/

/-- `add32` (41_ui32.md R100). -/
def Obligations.Add32WrapsAround : Prop :=
  (∀ a b : Word, (add32 a b).toNat = (a.toNat + b.toNat) % 2 ^ 32) ∧
  (∀ a b : Word, add32 a b = add32 b a) ∧
  (∀ a b c : Word, add32 (add32 a b) c = add32 a (add32 b c)) ∧
  add32 0xFFFFFFFF#32 0x00000001#32 = 0x00000000#32 ∧
  add32 0x80000000#32 0x80000000#32 = 0x00000000#32 ∧
  add32 0x67452301#32 0xEFCDAB89#32 = 0x5712CE8A#32

/-- `rotl32` on its domain (41_ui32.md R101). -/
def Obligations.Rotl32RotatesLeft : Prop :=
  (∀ (x : Word) (n : Nat), n < 32 →
    rotl32 x 0 = x ∧
    (1 ≤ n → (rotl32 x n).toNat = x.toNat * 2 ^ n % 2 ^ 32 + x.toNat / 2 ^ (32 - n)) ∧
    ∀ i : Nat, i < 32 → (rotl32 x n).getLsbD i = x.getLsbD ((i + (32 - n)) % 32)) ∧
  rotl32 0x80000001#32 1 = 0x00000003#32 ∧
  rotl32 0x12345678#32 8 = 0x34567812#32 ∧
  rotl32 0x12345678#32 30 = 0x048D159E#32

/-- `not32` and the bitwise operations (41_ui32.md R102, R103). -/
def Obligations.BitwiseOperationsBitByBit : Prop :=
  (∀ x : Word, (not32 x).toNat = 2 ^ 32 - 1 - x.toNat) ∧
  (∀ (a b : Word) (i : Nat), i < 32 →
    (and32 a b).getLsbD i = (a.getLsbD i && b.getLsbD i) ∧
    (or32 a b).getLsbD i = (a.getLsbD i || b.getLsbD i) ∧
    (xor32 a b).getLsbD i = (a.getLsbD i ^^ b.getLsbD i)) ∧
  not32 0x00000000#32 = 0xFFFFFFFF#32 ∧
  not32 0x10325476#32 = 0xEFCDAB89#32 ∧
  and32 0xEFCDAB89#32 0x98BADCFE#32 = 0x88888888#32 ∧
  or32 0xEFCDAB89#32 0x98BADCFE#32 = 0xFFFFFFFF#32 ∧
  xor32 0xEFCDAB89#32 0x98BADCFE#32 = 0x77777777#32

/-! ### Byte/Word Codec -/

/-- `StringToWords(octets, ob, be)`: number of words and every word, a short last group completed with zero
octets (42_codec.md R110). -/
def Obligations.StringToWordsPacksOctets : Prop :=
  ∀ (w : Width) (o : ByteOrder) (octets : List Octet),
    (stringToWords w o octets).length = (octets.length + (octetsPerWord w - 1)) / octetsPerWord w ∧
    (∀ j : Nat, j < (stringToWords w o octets).length →
      (wordAt (stringToWords w o octets) j).toNat =
        ((List.range (octetsPerWord w)).map fun m =>
          (octets[j * octetsPerWord w + m]?.getD 0#8).toNat *
            (if o = .big then 2 ^ (bitsOfWidth w - 8 - 8 * m) else 2 ^ (8 * m))).sum) ∧
    stringToWords w o [] = [] ∧
    stringToWords .w8 .big octets = stringToWords .w8 .little octets

/-- `WordsToString(words, ib, be)`: number of octets and every octet, bits above the width ignored
(42_codec.md R112). -/
def Obligations.WordsToStringUnpacksWords : Prop :=
  ∀ (w : Width) (o : ByteOrder) (words : List Word),
    (wordsToString w o words).length = words.length * octetsPerWord w ∧
    ∀ j m : Nat, j < words.length → m < octetsPerWord w →
      (wordsToString w o words)[j * octetsPerWord w + m]? =
        some (BitVec.ofNat 8 ((wordAt words j).toNat % 2 ^ bitsOfWidth w /
          (if o = .big then 2 ^ (bitsOfWidth w - 8 - 8 * m) else 2 ^ (8 * m))))

/-- The inverse laws of the codec, and the reversal of every word's octets under the other byte order
(42_codec.md R113). -/
def Obligations.CodecInverseLaws : Prop :=
  ∀ (w : Width) (o : ByteOrder),
    (∀ octets : List Octet,
      wordsToString w o (stringToWords w o octets) =
        octets ++ List.replicate ((octetsPerWord w - octets.length % octetsPerWord w) % octetsPerWord w) 0#8) ∧
    (∀ octets : List Octet,
      wordsToString w o (stringToWords w o octets) = octets ↔ octets.length % octetsPerWord w = 0) ∧
    (∀ words : List Word, (∀ x ∈ words, x.toNat < 2 ^ bitsOfWidth w) →
      stringToWords w o (wordsToString w o words) = words) ∧
    (∀ (other : ByteOrder) (octets : List Octet), other ≠ o →
      wordsToString w other (stringToWords w o octets) =
        (stringToWords w o octets).flatMap fun x => (wordsToString w o [x]).reverse)

/-- Input units wider than an octet are split most significant octet first, whatever the byte order of the
output (42_codec.md R111). -/
def Obligations.WideUnitsSplitMostSignificantFirst : Prop :=
  ∀ (u w : Width) (o : ByteOrder) (units : List Word),
    unitsToWords u w o units =
      stringToWords w o (units.flatMap fun v =>
        (List.range (octetsPerWord u)).map fun m => BitVec.ofNat 8 (v.toNat / 2 ^ (bitsOfWidth u - 8 - 8 * m)))

/-- `CDC.S2W`: in range it completes, cell `dst + j` holds word `j` of the packed octets, every other cell and
all else is unchanged, `RES` is the number of cells; out of range it is an `AddressRange` (42_codec.md R114;
20_memory.md R46). -/
def Obligations.S2wPacksOrRefusesRange : Prop :=
  ∀ (w : Width) (o : ByteOrder) (src count dst : Operand) (s : State), s.wmem.wf →
    (src.toNat + count.toNat ≤ s.params.bmemBytes →
      dst.toNat + (count.toNat + (octetsPerWord w - 1)) / octetsPerWord w ≤ s.params.wmemWords →
      ∃ (m : Memory 32) (res : Operand),
        exec (.cdcS2w w o src count dst) s = .next { s with wmem := m, response := some ⟨.ok, res⟩ } ∧
        res.toNat = (count.toNat + (octetsPerWord w - 1)) / octetsPerWord w ∧
        (∀ j : Nat, j < res.toNat →
          (m.read (dst.toNat + j)).toNat =
            ((List.range (octetsPerWord w)).map fun k =>
              (if j * octetsPerWord w + k < count.toNat
                then (s.bmem.read (src.toNat + (j * octetsPerWord w + k))).toNat else 0) *
              (if o = .big then 2 ^ (bitsOfWidth w - 8 - 8 * k) else 2 ^ (8 * k))).sum) ∧
        ∀ a : Nat, a < dst.toNat ∨ dst.toNat + res.toNat ≤ a → m.read a = s.wmem.read a) ∧
    (s.params.bmemBytes < src.toNat + count.toNat ∨
      s.params.wmemWords < dst.toNat + (count.toNat + (octetsPerWord w - 1)) / octetsPerWord w →
      exec (.cdcS2w w o src count dst) s = .next { s with response := some ⟨.addressRange, 0#64⟩ })

/-- `CDC.W2S`: in range it completes, octet `dst + j * q + k` is octet `k` of cell `src + j`, every other octet
and all else is unchanged, `RES` is the number of octets; out of range it is an `AddressRange`
(42_codec.md R115; 20_memory.md R46). -/
def Obligations.W2sUnpacksOrRefusesRange : Prop :=
  ∀ (w : Width) (o : ByteOrder) (src count dst : Operand) (s : State), s.bmem.wf → s.params.Ok →
    (src.toNat + count.toNat ≤ s.params.wmemWords →
      dst.toNat + count.toNat * octetsPerWord w ≤ s.params.bmemBytes →
      ∃ (m : Memory 8) (res : Operand),
        exec (.cdcW2s w o src count dst) s = .next { s with bmem := m, response := some ⟨.ok, res⟩ } ∧
        res.toNat = count.toNat * octetsPerWord w ∧
        (∀ j k : Nat, j < count.toNat → k < octetsPerWord w →
          m.read (dst.toNat + (j * octetsPerWord w + k)) =
            BitVec.ofNat 8 ((s.wmem.read (src.toNat + j)).toNat /
              (if o = .big then 2 ^ (bitsOfWidth w - 8 - 8 * k) else 2 ^ (8 * k)))) ∧
        ∀ a : Nat, a < dst.toNat ∨ dst.toNat + res.toNat ≤ a → m.read a = s.bmem.read a) ∧
    (s.params.wmemWords < src.toNat + count.toNat ∨
      s.params.bmemBytes < dst.toNat + count.toNat * octetsPerWord w →
      exec (.cdcW2s w o src count dst) s = .next { s with response := some ⟨.addressRange, 0#64⟩ })

/-! ### MD5 -/

/-- The compression function: 64 steps with the functions of R132, the shifts of R133, the word order of R134
and the formula of R135, then the word-wise addition of R136 (43_md5.md). -/
def Obligations.Md5CompressIsSixtyFourSteps : Prop :=
  ∀ (acc : Md5Acc) (block : List Word), ∃ x : Nat → Md5Acc,
    x 0 = acc ∧
    (∀ i : Nat, i < 64 →
      x (i + 1) =
        { a := (x i).d
          b := (x i).b + rotl32
            ((x i).a +
              (if i < 16 then ((x i).b &&& (x i).c) ||| (~~~(x i).b &&& (x i).d)
               else if i < 32 then ((x i).b &&& (x i).d) ||| ((x i).c &&& ~~~(x i).d)
               else if i < 48 then (x i).b ^^^ (x i).c ^^^ (x i).d
               else (x i).c ^^^ ((x i).b ||| ~~~(x i).d)) +
              wordAt md5K i +
              wordAt block
                (if i < 16 then i else if i < 32 then (5 * i + 1) % 16
                 else if i < 48 then (3 * i + 5) % 16 else 7 * i % 16))
            ((if i < 16 then [7, 12, 17, 22] else if i < 32 then [5, 9, 14, 20]
              else if i < 48 then [4, 11, 16, 23] else [6, 10, 15, 21]).getD (i % 4) 0)
          c := (x i).b
          d := (x i).c }) ∧
    md5Compress acc block =
      { a := acc.a + (x 64).a, b := acc.b + (x 64).b, c := acc.c + (x 64).c, d := acc.d + (x 64).d }

/-- `Md5Pad(msg)`: the padded length, every octet of it, and the last block's words 14 and 15
(43_md5.md R137). -/
def Obligations.Md5PadLaysOutTheMessage : Prop :=
  ∀ msg : List Octet, ∃ z : Nat,
    z < 64 ∧
    msg.length + 1 + z + 8 = 64 * ((msg.length + 8) / 64 + 1) ∧
    (md5Pad msg).length = msg.length + 1 + z + 8 ∧
    (∀ n : Nat, n < msg.length → (md5Pad msg)[n]? = msg[n]?) ∧
    (md5Pad msg)[msg.length]? = some 0x80#8 ∧
    (∀ n : Nat, n < z → (md5Pad msg)[msg.length + 1 + n]? = some 0#8) ∧
    (∀ n : Nat, n < 8 → (md5Pad msg)[msg.length + 1 + z + n]? =
      some (BitVec.ofNat 8 (8 * msg.length % 2 ^ 64 / 2 ^ (8 * n)))) ∧
    (wordAt (stringToWords .w32 .little (md5Pad msg)) (16 * ((msg.length + 8) / 64) + 14)).toNat =
      8 * msg.length % 2 ^ 64 % 2 ^ 32 ∧
    (wordAt (stringToWords .w32 .little (md5Pad msg)) (16 * ((msg.length + 8) / 64) + 15)).toNat =
      8 * msg.length % 2 ^ 64 / 2 ^ 32

/-- `Md5Digest(msg)`: the blocks of the padded message, packed little-endian, are compressed one after another
from `MD5_IV` (43_md5.md R130, R138). -/
def Obligations.Md5DigestChainsTheBlocks : Prop :=
  ∀ msg : List Octet, ∃ acc : Nat → Md5Acc,
    acc 0 = ⟨0x67452301#32, 0xEFCDAB89#32, 0x98BADCFE#32, 0x10325476#32⟩ ∧
    (∀ k : Nat, k < (msg.length + 8) / 64 + 1 → ∃ block : List Word,
      block.length = 16 ∧
      (∀ j : Nat, j < 16 → (wordAt block j).toNat =
        ((List.range 4).map fun m =>
          ((md5Pad msg)[64 * k + 4 * j + m]?.getD 0#8).toNat * 2 ^ (8 * m)).sum) ∧
      acc (k + 1) = md5Compress (acc k) block) ∧
    md5DigestAcc msg = acc ((msg.length + 8) / 64 + 1) ∧
    (md5Digest msg).length = 16 ∧
    ∀ n : Nat, n < 16 → (md5Digest msg)[n]? =
      some (BitVec.ofNat 8 ((wordAt (md5DigestAcc msg).toList (n / 4)).toNat / 2 ^ (8 * (n % 4))))

/-- The digests of the message of the source's own two vectors (95_test_vectors.md S1, S2). -/
def Obligations.DigestsOfTheSourceVectors : Prop :=
  md5Digest [0x6b, 0xa7, 0xb8, 0x11, 0x9d, 0xad, 0x11, 0xd1, 0x80, 0xb4, 0x00, 0xc0, 0x4f, 0xd4, 0x30, 0xc8,
    0x66, 0x6f, 0x6f] =
    [0xa5, 0xbf, 0x60, 0xbd, 0xfe, 0x2d, 0x0f, 0xac, 0x3b, 0xd7, 0x40, 0x47, 0x51, 0xe6, 0xca, 0x66] ∧
  sha1Digest [0x6b, 0xa7, 0xb8, 0x11, 0x9d, 0xad, 0x11, 0xd1, 0x80, 0xb4, 0x00, 0xc0, 0x4f, 0xd4, 0x30, 0xc8,
    0x66, 0x6f, 0x6f] =
    [0x7d, 0xa7, 0x82, 0x84, 0x2f, 0x14, 0x6e, 0x7f, 0xd5, 0xe1, 0xba, 0xaa, 0x90, 0x27, 0xc2, 0x6f,
     0x1c, 0xad, 0x94, 0xd9]

/-- `MD5.INIT` completes in every state and sets MA alone (43_md5.md R130, R139). -/
def Obligations.Md5InitSetsTheAccumulators : Prop :=
  ∀ s : State, exec .md5Init s =
    .next { s with ma := ⟨0x67452301#32, 0xEFCDAB89#32, 0x98BADCFE#32, 0x10325476#32⟩,
                   response := some ⟨.ok, 0#64⟩ }

/-- `MD5.BLOCK`: in range it completes, compresses the 16 cells into MA and changes nothing else; out of range it
is an `AddressRange` (43_md5.md R140). -/
def Obligations.Md5BlockCompressesCells : Prop :=
  ∀ (widx : Operand) (s : State),
    (widx.toNat + 16 ≤ s.params.wmemWords → ∃ block : List Word,
      block.length = 16 ∧ (∀ j : Nat, j < 16 → block[j]? = some (s.wmem.read (widx.toNat + j))) ∧
      exec (.md5Block widx) s =
        .next { s with ma := md5Compress s.ma block, response := some ⟨.ok, 0#64⟩ }) ∧
    (s.params.wmemWords < widx.toNat + 16 →
      exec (.md5Block widx) s = .next { s with response := some ⟨.addressRange, 0#64⟩ })

/-- `MD5.OUT`: in range it completes and writes the 16 octets of MA, little-endian; every other octet and all
else is unchanged; out of range it is an `AddressRange` (43_md5.md R141). -/
def Obligations.Md5OutWritesTheAccumulators : Prop :=
  ∀ (dst : Operand) (s : State), s.bmem.wf →
    (dst.toNat + 16 ≤ s.params.bmemBytes → ∃ m : Memory 8,
      exec (.md5Out dst) s = .next { s with bmem := m, response := some ⟨.ok, 0#64⟩ } ∧
      (∀ n : Nat, n < 16 → m.read (dst.toNat + n) =
        BitVec.ofNat 8 ((wordAt s.ma.toList (n / 4)).toNat / 2 ^ (8 * (n % 4)))) ∧
      ∀ a : Nat, a < dst.toNat ∨ dst.toNat + 16 ≤ a → m.read a = s.bmem.read a) ∧
    (s.params.bmemBytes < dst.toNat + 16 →
      exec (.md5Out dst) s = .next { s with response := some ⟨.addressRange, 0#64⟩ })

/-- `MD5.DIGEST`: in range it completes, MA holds the final accumulators and BMEM the 16 digest octets of the
octets that were in the source range before, every other octet and all else is unchanged, `RES` is the number
of blocks; out of range it is an `AddressRange` (43_md5.md R142; 20_memory.md R49). -/
def Obligations.Md5DigestCommandDigestsTheSource : Prop :=
  ∀ (src len dst : Operand) (s : State), s.bmem.wf →
    (src.toNat + len.toNat ≤ s.params.bmemBytes → dst.toNat + 16 ≤ s.params.bmemBytes →
      ∃ (m : Memory 8) (msg : List Octet) (res : Operand),
        msg.length = len.toNat ∧
        (∀ j : Nat, j < len.toNat → msg[j]? = some (s.bmem.read (src.toNat + j))) ∧
        exec (.md5Digest src len dst) s =
          .next { s with ma := md5DigestAcc msg, bmem := m, response := some ⟨.ok, res⟩ } ∧
        res.toNat = (len.toNat + 8) / 64 + 1 ∧
        (∀ n : Nat, n < 16 → some (m.read (dst.toNat + n)) = (md5Digest msg)[n]?) ∧
        ∀ a : Nat, a < dst.toNat ∨ dst.toNat + 16 ≤ a → m.read a = s.bmem.read a) ∧
    (s.params.bmemBytes < src.toNat + len.toNat ∨ s.params.bmemBytes < dst.toNat + 16 →
      exec (.md5Digest src len dst) s = .next { s with response := some ⟨.addressRange, 0#64⟩ })

/-- `MD5.INIT`, one `MD5.BLOCK` per block of the padded message packed by the host, `MD5.OUT` leave the same
state as `MD5.DIGEST` (43_md5.md R142). -/
def Obligations.Md5BlockPathEqualsDigest : Prop :=
  ∀ (s : State) (src len dst widx : Operand) (msg : List Octet), Inv s →
    src.toNat + len.toNat ≤ s.params.bmemBytes → dst.toNat + 16 ≤ s.params.bmemBytes →
    msg.length = len.toNat → (∀ j : Nat, j < len.toNat → msg[j]? = some (s.bmem.read (src.toNat + j))) →
    widx.toNat + 16 * ((len.toNat + 8) / 64 + 1) ≤ s.params.wmemWords →
    (∀ n : Nat, n < 16 * ((len.toNat + 8) / 64 + 1) →
      (stringToWords .w32 .little (md5Pad msg))[n]? = some (s.wmem.read (widx.toNat + n))) →
    ∃ t d : State,
      execAll
        (.md5Init ::
          ((List.range ((len.toNat + 8) / 64 + 1)).map fun k =>
            .md5Block (BitVec.ofNat 64 (widx.toNat + 16 * k))) ++
          [.md5Out dst]) s = .next t ∧
      exec (.md5Digest src len dst) s = .next d ∧ SameCore t d

/-! ### SHA-1 -/

/-- `Sha1Schedule(M)` (44_sha1.md R163). -/
def Obligations.Sha1ScheduleExtendsTheBlock : Prop :=
  ∀ block : List Word, block.length = 16 →
    (sha1Schedule block).length = 80 ∧
    (∀ t : Nat, t < 16 → (sha1Schedule block)[t]? = block[t]?) ∧
    ∀ t : Nat, 16 ≤ t → t < 80 →
      wordAt (sha1Schedule block) t =
        rotl32 (wordAt (sha1Schedule block) (t - 3) ^^^ wordAt (sha1Schedule block) (t - 8) ^^^
          wordAt (sha1Schedule block) (t - 14) ^^^ wordAt (sha1Schedule block) (t - 16)) 1

/-- The compression function: 80 steps with the constants of R161, the functions of R162 and the formula of
R164, then the word-wise addition of R165 (44_sha1.md). -/
def Obligations.Sha1CompressIsEightySteps : Prop :=
  ∀ (acc : Sha1Acc) (block : List Word), ∃ x : Nat → Sha1Acc,
    x 0 = acc ∧
    (∀ t : Nat, t < 80 →
      x (t + 1) =
        { a := rotl32 (x t).a 5 +
            (if t < 20 then ((x t).b &&& (x t).c) ||| (~~~(x t).b &&& (x t).d)
             else if 40 ≤ t ∧ t < 60 then
               ((x t).b &&& (x t).c) ||| ((x t).b &&& (x t).d) ||| ((x t).c &&& (x t).d)
             else (x t).b ^^^ (x t).c ^^^ (x t).d) +
            (x t).e + wordAt (sha1Schedule block) t +
            (if t < 20 then 0x5A827999#32 else if t < 40 then 0x6ED9EBA1#32
             else if t < 60 then 0x8F1BBCDC#32 else 0xCA62C1D6#32)
          b := (x t).a
          c := rotl32 (x t).b 30
          d := (x t).c
          e := (x t).d }) ∧
    sha1Compress acc block =
      { a := acc.a + (x 80).a, b := acc.b + (x 80).b, c := acc.c + (x 80).c, d := acc.d + (x 80).d,
        e := acc.e + (x 80).e }

/-- `Sha1Pad(msg)`: as MD5's padding, the bit length most significant octet first, and the last block's words 14
and 15 (44_sha1.md R166). -/
def Obligations.Sha1PadLaysOutTheMessage : Prop :=
  ∀ msg : List Octet, ∃ z : Nat,
    z < 64 ∧
    msg.length + 1 + z + 8 = 64 * ((msg.length + 8) / 64 + 1) ∧
    (sha1Pad msg).length = msg.length + 1 + z + 8 ∧
    (∀ n : Nat, n < msg.length → (sha1Pad msg)[n]? = msg[n]?) ∧
    (sha1Pad msg)[msg.length]? = some 0x80#8 ∧
    (∀ n : Nat, n < z → (sha1Pad msg)[msg.length + 1 + n]? = some 0#8) ∧
    (∀ n : Nat, n < 8 → (sha1Pad msg)[msg.length + 1 + z + n]? =
      some (BitVec.ofNat 8 (8 * msg.length % 2 ^ 64 / 2 ^ (56 - 8 * n)))) ∧
    (wordAt (stringToWords .w32 .big (sha1Pad msg)) (16 * ((msg.length + 8) / 64) + 14)).toNat =
      8 * msg.length % 2 ^ 64 / 2 ^ 32 ∧
    (wordAt (stringToWords .w32 .big (sha1Pad msg)) (16 * ((msg.length + 8) / 64) + 15)).toNat =
      8 * msg.length % 2 ^ 64 % 2 ^ 32

/-- `Sha1Digest(msg)`: the blocks of the padded message, packed big-endian, are compressed one after another
from `SHA1_IV` (44_sha1.md R160, R167). -/
def Obligations.Sha1DigestChainsTheBlocks : Prop :=
  ∀ msg : List Octet, ∃ acc : Nat → Sha1Acc,
    acc 0 = ⟨0x67452301#32, 0xEFCDAB89#32, 0x98BADCFE#32, 0x10325476#32, 0xC3D2E1F0#32⟩ ∧
    (∀ k : Nat, k < (msg.length + 8) / 64 + 1 → ∃ block : List Word,
      block.length = 16 ∧
      (∀ j : Nat, j < 16 → (wordAt block j).toNat =
        ((List.range 4).map fun m =>
          ((sha1Pad msg)[64 * k + 4 * j + m]?.getD 0#8).toNat * 2 ^ (24 - 8 * m)).sum) ∧
      acc (k + 1) = sha1Compress (acc k) block) ∧
    sha1DigestAcc msg = acc ((msg.length + 8) / 64 + 1) ∧
    (sha1Digest msg).length = 20 ∧
    ∀ n : Nat, n < 20 → (sha1Digest msg)[n]? =
      some (BitVec.ofNat 8 ((wordAt (sha1DigestAcc msg).toList (n / 4)).toNat / 2 ^ (24 - 8 * (n % 4))))

/-- `SHA1.INIT` completes in every state and sets SH alone (44_sha1.md R160, R168). -/
def Obligations.Sha1InitSetsTheAccumulators : Prop :=
  ∀ s : State, exec .sha1Init s =
    .next { s with sh := ⟨0x67452301#32, 0xEFCDAB89#32, 0x98BADCFE#32, 0x10325476#32, 0xC3D2E1F0#32⟩,
                   response := some ⟨.ok, 0#64⟩ }

/-- `SHA1.BLOCK`: in range it completes, compresses the 16 cells into SH and changes nothing else; out of range
it is an `AddressRange` (44_sha1.md R169). -/
def Obligations.Sha1BlockCompressesCells : Prop :=
  ∀ (widx : Operand) (s : State),
    (widx.toNat + 16 ≤ s.params.wmemWords → ∃ block : List Word,
      block.length = 16 ∧ (∀ j : Nat, j < 16 → block[j]? = some (s.wmem.read (widx.toNat + j))) ∧
      exec (.sha1Block widx) s =
        .next { s with sh := sha1Compress s.sh block, response := some ⟨.ok, 0#64⟩ }) ∧
    (s.params.wmemWords < widx.toNat + 16 →
      exec (.sha1Block widx) s = .next { s with response := some ⟨.addressRange, 0#64⟩ })

/-- `SHA1.OUT`: in range it completes and writes the 20 octets of SH, big-endian; every other octet and all else
is unchanged; out of range it is an `AddressRange` (44_sha1.md R170). -/
def Obligations.Sha1OutWritesTheAccumulators : Prop :=
  ∀ (dst : Operand) (s : State), s.bmem.wf →
    (dst.toNat + 20 ≤ s.params.bmemBytes → ∃ m : Memory 8,
      exec (.sha1Out dst) s = .next { s with bmem := m, response := some ⟨.ok, 0#64⟩ } ∧
      (∀ n : Nat, n < 20 → m.read (dst.toNat + n) =
        BitVec.ofNat 8 ((wordAt s.sh.toList (n / 4)).toNat / 2 ^ (24 - 8 * (n % 4)))) ∧
      ∀ a : Nat, a < dst.toNat ∨ dst.toNat + 20 ≤ a → m.read a = s.bmem.read a) ∧
    (s.params.bmemBytes < dst.toNat + 20 →
      exec (.sha1Out dst) s = .next { s with response := some ⟨.addressRange, 0#64⟩ })

/-- `SHA1.DIGEST`: in range it completes, SH holds the final accumulators and BMEM the 20 digest octets of the
octets that were in the source range before, every other octet and all else is unchanged, `RES` is the number
of blocks; out of range it is an `AddressRange` (44_sha1.md R171; 20_memory.md R49). -/
def Obligations.Sha1DigestCommandDigestsTheSource : Prop :=
  ∀ (src len dst : Operand) (s : State), s.bmem.wf →
    (src.toNat + len.toNat ≤ s.params.bmemBytes → dst.toNat + 20 ≤ s.params.bmemBytes →
      ∃ (m : Memory 8) (msg : List Octet) (res : Operand),
        msg.length = len.toNat ∧
        (∀ j : Nat, j < len.toNat → msg[j]? = some (s.bmem.read (src.toNat + j))) ∧
        exec (.sha1Digest src len dst) s =
          .next { s with sh := sha1DigestAcc msg, bmem := m, response := some ⟨.ok, res⟩ } ∧
        res.toNat = (len.toNat + 8) / 64 + 1 ∧
        (∀ n : Nat, n < 20 → some (m.read (dst.toNat + n)) = (sha1Digest msg)[n]?) ∧
        ∀ a : Nat, a < dst.toNat ∨ dst.toNat + 20 ≤ a → m.read a = s.bmem.read a) ∧
    (s.params.bmemBytes < src.toNat + len.toNat ∨ s.params.bmemBytes < dst.toNat + 20 →
      exec (.sha1Digest src len dst) s = .next { s with response := some ⟨.addressRange, 0#64⟩ })

/-- `SHA1.INIT`, one `SHA1.BLOCK` per block of the padded message packed by the host, `SHA1.OUT` leave the same
state as `SHA1.DIGEST` (44_sha1.md R171). -/
def Obligations.Sha1BlockPathEqualsDigest : Prop :=
  ∀ (s : State) (src len dst widx : Operand) (msg : List Octet), Inv s →
    src.toNat + len.toNat ≤ s.params.bmemBytes → dst.toNat + 20 ≤ s.params.bmemBytes →
    msg.length = len.toNat → (∀ j : Nat, j < len.toNat → msg[j]? = some (s.bmem.read (src.toNat + j))) →
    widx.toNat + 16 * ((len.toNat + 8) / 64 + 1) ≤ s.params.wmemWords →
    (∀ n : Nat, n < 16 * ((len.toNat + 8) / 64 + 1) →
      (stringToWords .w32 .big (sha1Pad msg))[n]? = some (s.wmem.read (widx.toNat + n))) →
    ∃ t d : State,
      execAll
        (.sha1Init ::
          ((List.range ((len.toNat + 8) / 64 + 1)).map fun k =>
            .sha1Block (BitVec.ofNat 64 (widx.toNat + 16 * k))) ++
          [.sha1Out dst]) s = .next t ∧
      exec (.sha1Digest src len dst) s = .next d ∧ SameCore t d

/-- The result of a digest command depends on the octets it reads and on nothing else: two states of the same
sizes whose source ranges hold the same octets get the same accumulators, digest octets and response
(10_state.md R31). -/
def Obligations.DigestDependsOnItsSourceAlone : Prop :=
  ∀ (s s' t t' : State) (src src' len dst dst' : Operand), s.bmem.wf → s'.bmem.wf →
    (∀ j : Nat, j < len.toNat → s.bmem.read (src.toNat + j) = s'.bmem.read (src'.toNat + j)) →
    (exec (.md5Digest src len dst) s = .next t → exec (.md5Digest src' len dst') s' = .next t' →
      (∀ r r' : Response, t.response = some r → t'.response = some r' → r.status = .ok → r'.status = .ok →
        t.ma = t'.ma ∧ r = r' ∧
        ∀ n : Nat, n < 16 → t.bmem.read (dst.toNat + n) = t'.bmem.read (dst'.toNat + n))) ∧
    (exec (.sha1Digest src len dst) s = .next t → exec (.sha1Digest src' len dst') s' = .next t' →
      (∀ r r' : Response, t.response = some r → t'.response = some r' → r.status = .ok → r'.status = .ok →
        t.sh = t'.sh ∧ r = r' ∧
        ∀ n : Nat, n < 20 → t.bmem.read (dst.toNat + n) = t'.bmem.read (dst'.toNat + n)))

/-! ### Buffer access -/

/-- `BM.WR`: an octet below 256 at an address in range is written and nothing else changes; an over-wide value
is an `IllegalOperand` whatever the address, an address out of range an `AddressRange`
(45_buffer_access.md R190). -/
def Obligations.BmWrWritesOneOctet : Prop :=
  ∀ (addr octet : Operand) (s : State), s.bmem.wf →
    (octet.toNat < 256 → addr.toNat < s.params.bmemBytes → ∃ m : Memory 8,
      exec (.bmWr addr octet) s = .next { s with bmem := m, response := some ⟨.ok, 0#64⟩ } ∧
      (m.read addr.toNat).toNat = octet.toNat ∧
      ∀ a : Nat, a ≠ addr.toNat → m.read a = s.bmem.read a) ∧
    (256 ≤ octet.toNat →
      exec (.bmWr addr octet) s = .next { s with response := some ⟨.illegalOperand, 0#64⟩ }) ∧
    (octet.toNat < 256 → s.params.bmemBytes ≤ addr.toNat →
      exec (.bmWr addr octet) s = .next { s with response := some ⟨.addressRange, 0#64⟩ })

/-- `BM.RD`: in range it returns the octet, zero-extended, and changes no state; out of range it is an
`AddressRange` (45_buffer_access.md R191). -/
def Obligations.BmRdReturnsTheOctet : Prop :=
  ∀ (addr : Operand) (s : State),
    (addr.toNat < s.params.bmemBytes → ∃ res : Operand,
      exec (.bmRd addr) s = .next { s with response := some ⟨.ok, res⟩ } ∧
      res.toNat = (s.bmem.read addr.toNat).toNat) ∧
    (s.params.bmemBytes ≤ addr.toNat →
      exec (.bmRd addr) s = .next { s with response := some ⟨.addressRange, 0#64⟩ })

/-- `WM.WR`: a word below `2^32` at an index in range is written and nothing else changes; an over-wide value is
an `IllegalOperand` whatever the index, an index out of range an `AddressRange` (45_buffer_access.md R192). -/
def Obligations.WmWrWritesOneCell : Prop :=
  ∀ (idx word : Operand) (s : State), s.wmem.wf →
    (word.toNat < 2 ^ 32 → idx.toNat < s.params.wmemWords → ∃ m : Memory 32,
      exec (.wmWr idx word) s = .next { s with wmem := m, response := some ⟨.ok, 0#64⟩ } ∧
      (m.read idx.toNat).toNat = word.toNat ∧
      ∀ a : Nat, a ≠ idx.toNat → m.read a = s.wmem.read a) ∧
    (2 ^ 32 ≤ word.toNat →
      exec (.wmWr idx word) s = .next { s with response := some ⟨.illegalOperand, 0#64⟩ }) ∧
    (word.toNat < 2 ^ 32 → s.params.wmemWords ≤ idx.toNat →
      exec (.wmWr idx word) s = .next { s with response := some ⟨.addressRange, 0#64⟩ })

/-- `WM.RD`: in range it returns the cell, zero-extended, and changes no state; out of range it is an
`AddressRange` (45_buffer_access.md R193). -/
def Obligations.WmRdReturnsTheCell : Prop :=
  ∀ (idx : Operand) (s : State),
    (idx.toNat < s.params.wmemWords → ∃ res : Operand,
      exec (.wmRd idx) s = .next { s with response := some ⟨.ok, res⟩ } ∧
      res.toNat = (s.wmem.read idx.toNat).toNat) ∧
    (s.params.wmemWords ≤ idx.toNat →
      exec (.wmRd idx) s = .next { s with response := some ⟨.addressRange, 0#64⟩ })

/-- The pseudo-command `BM.WRS` writes an octet string, lowest address first, and every octet outside it and all
other state stays (30_encoding.md R72). -/
def Obligations.WrsWritesTheString : Prop :=
  ∀ (addr : Nat) (octets : List Octet) (s : State), Inv s → octets ≠ [] →
    addr + octets.length ≤ s.params.bmemBytes → ∃ m : Memory 8,
      execAll (pseudoWrs addr octets) s = .next { s with bmem := m, response := some ⟨.ok, 0#64⟩ } ∧
      (∀ n : Nat, n < octets.length → some (m.read (addr + n)) = octets[n]?) ∧
      ∀ a : Nat, a < addr ∨ addr + octets.length ≤ a → m.read a = s.bmem.read a
end

