-- ==== Sys2Proof/Laws/State.lean ====
section
/-! SUPPORT. One lemma per field per update of the state, true by rfl, so that no later proof unfolds a record
update. The proofs are written `(rfl)` so that `simp` uses them as equations and leaves no definitional check to
the kernel: comparing two states by unfolding would unfold a whole compression function. -/

namespace Sys2Proof.Machine

variable (s : State)

/-! ### respond -/

@[simp] theorem State.respond_u (status : Status) (res : Operand) : (s.respond status res).u = s.u := (rfl)
@[simp] theorem State.respond_ma (status : Status) (res : Operand) : (s.respond status res).ma = s.ma := (rfl)
@[simp] theorem State.respond_sh (status : Status) (res : Operand) : (s.respond status res).sh = s.sh := (rfl)
@[simp] theorem State.respond_bmem (status : Status) (res : Operand) : (s.respond status res).bmem = s.bmem := (rfl)
@[simp] theorem State.respond_wmem (status : Status) (res : Operand) : (s.respond status res).wmem = s.wmem := (rfl)
@[simp] theorem State.respond_params (status : Status) (res : Operand) : (s.respond status res).params = s.params := (rfl)
@[simp] theorem State.respond_inbox (status : Status) (res : Operand) : (s.respond status res).inbox = s.inbox := (rfl)
@[simp] theorem State.respond_response (status : Status) (res : Operand) : (s.respond status res).response = some ⟨status, res⟩ := (rfl)

/-! ### writeU -/

@[simp] theorem State.writeU_u (r : Reg) (x : Ui64) : (s.writeU r x).u = s.u.set r x := (rfl)
@[simp] theorem State.writeU_ma (r : Reg) (x : Ui64) : (s.writeU r x).ma = s.ma := (rfl)
@[simp] theorem State.writeU_sh (r : Reg) (x : Ui64) : (s.writeU r x).sh = s.sh := (rfl)
@[simp] theorem State.writeU_bmem (r : Reg) (x : Ui64) : (s.writeU r x).bmem = s.bmem := (rfl)
@[simp] theorem State.writeU_wmem (r : Reg) (x : Ui64) : (s.writeU r x).wmem = s.wmem := (rfl)
@[simp] theorem State.writeU_params (r : Reg) (x : Ui64) : (s.writeU r x).params = s.params := (rfl)
@[simp] theorem State.writeU_inbox (r : Reg) (x : Ui64) : (s.writeU r x).inbox = s.inbox := (rfl)
@[simp] theorem State.writeU_response (r : Reg) (x : Ui64) : (s.writeU r x).response = s.response := (rfl)

/-! ### writeMa -/

@[simp] theorem State.writeMa_u (acc : Md5Acc) : (s.writeMa acc).u = s.u := (rfl)
@[simp] theorem State.writeMa_ma (acc : Md5Acc) : (s.writeMa acc).ma = acc := (rfl)
@[simp] theorem State.writeMa_sh (acc : Md5Acc) : (s.writeMa acc).sh = s.sh := (rfl)
@[simp] theorem State.writeMa_bmem (acc : Md5Acc) : (s.writeMa acc).bmem = s.bmem := (rfl)
@[simp] theorem State.writeMa_wmem (acc : Md5Acc) : (s.writeMa acc).wmem = s.wmem := (rfl)
@[simp] theorem State.writeMa_params (acc : Md5Acc) : (s.writeMa acc).params = s.params := (rfl)
@[simp] theorem State.writeMa_inbox (acc : Md5Acc) : (s.writeMa acc).inbox = s.inbox := (rfl)
@[simp] theorem State.writeMa_response (acc : Md5Acc) : (s.writeMa acc).response = s.response := (rfl)

/-! ### writeSh -/

@[simp] theorem State.writeSh_u (acc : Sha1Acc) : (s.writeSh acc).u = s.u := (rfl)
@[simp] theorem State.writeSh_ma (acc : Sha1Acc) : (s.writeSh acc).ma = s.ma := (rfl)
@[simp] theorem State.writeSh_sh (acc : Sha1Acc) : (s.writeSh acc).sh = acc := (rfl)
@[simp] theorem State.writeSh_bmem (acc : Sha1Acc) : (s.writeSh acc).bmem = s.bmem := (rfl)
@[simp] theorem State.writeSh_wmem (acc : Sha1Acc) : (s.writeSh acc).wmem = s.wmem := (rfl)
@[simp] theorem State.writeSh_params (acc : Sha1Acc) : (s.writeSh acc).params = s.params := (rfl)
@[simp] theorem State.writeSh_inbox (acc : Sha1Acc) : (s.writeSh acc).inbox = s.inbox := (rfl)
@[simp] theorem State.writeSh_response (acc : Sha1Acc) : (s.writeSh acc).response = s.response := (rfl)

/-! ### writeBmem -/

@[simp] theorem State.writeBmem_u (a : Nat) (octets : List Octet) : (s.writeBmem a octets).u = s.u := (rfl)
@[simp] theorem State.writeBmem_ma (a : Nat) (octets : List Octet) : (s.writeBmem a octets).ma = s.ma := (rfl)
@[simp] theorem State.writeBmem_sh (a : Nat) (octets : List Octet) : (s.writeBmem a octets).sh = s.sh := (rfl)
@[simp] theorem State.writeBmem_bmem (a : Nat) (octets : List Octet) : (s.writeBmem a octets).bmem = s.bmem.writeRange a octets := (rfl)
@[simp] theorem State.writeBmem_wmem (a : Nat) (octets : List Octet) : (s.writeBmem a octets).wmem = s.wmem := (rfl)
@[simp] theorem State.writeBmem_params (a : Nat) (octets : List Octet) : (s.writeBmem a octets).params = s.params := (rfl)
@[simp] theorem State.writeBmem_inbox (a : Nat) (octets : List Octet) : (s.writeBmem a octets).inbox = s.inbox := (rfl)
@[simp] theorem State.writeBmem_response (a : Nat) (octets : List Octet) : (s.writeBmem a octets).response = s.response := (rfl)

/-! ### writeWmem -/

@[simp] theorem State.writeWmem_u (a : Nat) (words : List Word) : (s.writeWmem a words).u = s.u := (rfl)
@[simp] theorem State.writeWmem_ma (a : Nat) (words : List Word) : (s.writeWmem a words).ma = s.ma := (rfl)
@[simp] theorem State.writeWmem_sh (a : Nat) (words : List Word) : (s.writeWmem a words).sh = s.sh := (rfl)
@[simp] theorem State.writeWmem_bmem (a : Nat) (words : List Word) : (s.writeWmem a words).bmem = s.bmem := (rfl)
@[simp] theorem State.writeWmem_wmem (a : Nat) (words : List Word) : (s.writeWmem a words).wmem = s.wmem.writeRange a words := (rfl)
@[simp] theorem State.writeWmem_params (a : Nat) (words : List Word) : (s.writeWmem a words).params = s.params := (rfl)
@[simp] theorem State.writeWmem_inbox (a : Nat) (words : List Word) : (s.writeWmem a words).inbox = s.inbox := (rfl)
@[simp] theorem State.writeWmem_response (a : Nat) (words : List Word) : (s.writeWmem a words).response = s.response := (rfl)

/-! ### withFetchWord -/

@[simp] theorem State.withFetchWord_u (nbits w : Nat) : (s.withFetchWord nbits w).u = s.u := (rfl)
@[simp] theorem State.withFetchWord_ma (nbits w : Nat) : (s.withFetchWord nbits w).ma = s.ma := (rfl)
@[simp] theorem State.withFetchWord_sh (nbits w : Nat) : (s.withFetchWord nbits w).sh = s.sh := (rfl)
@[simp] theorem State.withFetchWord_bmem (nbits w : Nat) : (s.withFetchWord nbits w).bmem = s.bmem := (rfl)
@[simp] theorem State.withFetchWord_wmem (nbits w : Nat) : (s.withFetchWord nbits w).wmem = s.wmem := (rfl)
@[simp] theorem State.withFetchWord_params (nbits w : Nat) : (s.withFetchWord nbits w).params = s.params := (rfl)
@[simp] theorem State.withFetchWord_inbox (nbits w : Nat) : (s.withFetchWord nbits w).inbox = .packet (packetOfBits nbits w) :: s.inbox := (rfl)
@[simp] theorem State.withFetchWord_response (nbits w : Nat) : (s.withFetchWord nbits w).response = s.response := (rfl)

/-! ### present -/

@[simp] theorem State.present_u (program : List Instr) : (s.present program).u = s.u := (rfl)
@[simp] theorem State.present_ma (program : List Instr) : (s.present program).ma = s.ma := (rfl)
@[simp] theorem State.present_sh (program : List Instr) : (s.present program).sh = s.sh := (rfl)
@[simp] theorem State.present_bmem (program : List Instr) : (s.present program).bmem = s.bmem := (rfl)
@[simp] theorem State.present_wmem (program : List Instr) : (s.present program).wmem = s.wmem := (rfl)
@[simp] theorem State.present_params (program : List Instr) : (s.present program).params = s.params := (rfl)
@[simp] theorem State.present_inbox (program : List Instr) : (s.present program).inbox = program.map (fun i => .packet (encode i)) ++ s.inbox := (rfl)
@[simp] theorem State.present_response (program : List Instr) : (s.present program).response = s.response := (rfl)

/-! ### applyReset -/

@[simp] theorem applyReset_u (values : ResetValues) : (applyReset values s).u = values.u := (rfl)
@[simp] theorem applyReset_ma (values : ResetValues) : (applyReset values s).ma = values.ma := (rfl)
@[simp] theorem applyReset_sh (values : ResetValues) : (applyReset values s).sh = values.sh := (rfl)
@[simp] theorem applyReset_bmem (values : ResetValues) : (applyReset values s).bmem = Memory.ofCells s.params.bmemBytes values.bmem := (rfl)
@[simp] theorem applyReset_wmem (values : ResetValues) : (applyReset values s).wmem = Memory.ofCells s.params.wmemWords values.wmem := (rfl)
@[simp] theorem applyReset_params (values : ResetValues) : (applyReset values s).params = s.params := (rfl)
@[simp] theorem applyReset_inbox (values : ResetValues) : (applyReset values s).inbox = s.inbox := (rfl)
@[simp] theorem applyReset_response (values : ResetValues) : (applyReset values s).response = none := (rfl)

/-! ### registers -/

@[simp] theorem State.readU_writeU_same (r : Reg) (x : Ui64) : (s.writeU r x).readU r = x := by
  simp [State.readU]

theorem State.readU_writeU_ne (r q : Reg) (x : Ui64) (h : q ≠ r) : (s.writeU r x).readU q = s.readU q := by
  have hv : r.val ≠ q.val := fun e => h (Fin.ext e.symm)
  simp [State.readU, State.writeU, Vector.getElem_set_ne _ _ hv]

theorem State.writeU_readU (r : Reg) : s.writeU r (s.readU r) = s := by
  simp [State.writeU, State.readU]

/-! ### outcomes -/

@[simp] theorem complete_eq (v : Nat) : complete s v = .next (s.respond .ok (BitVec.ofNat 64 v)) := (rfl)

@[simp] theorem raise_eq (status : Status) : raise status s = .next (s.respond status 0#64) := (rfl)

end Sys2Proof.Machine
end

