-- ==== Sys2Proof/Laws/Step.lean ====
section
/-! SUPPORT. What a step can do, said once, and the small facts of the shared checks. -/

namespace Sys2Proof.Machine

/-- A step that answers a next state is an idle step, a reset, a packet that is no command, or a command. -/
theorem step_cases (s t : State) (h : step s = .next t) :
    (s.inbox = [] ∧ t = s) ∨
    (∃ v rest, s.inbox = .reset v :: rest ∧ t = applyReset v { s with inbox := rest }) ∨
    (∃ p rest e, s.inbox = .packet p :: rest ∧ decode p = .error e ∧
      t = State.respond { s with inbox := rest } .illegalCommand 0#64) ∨
    (∃ p rest i, s.inbox = .packet p :: rest ∧ decode p = .ok i ∧
      exec i { s with inbox := rest } = .next t) := by
  unfold step at h
  split at h
  · rename_i hi
    exact .inl ⟨hi, by simpa using h.symm⟩
  · rename_i v rest hi
    exact .inr (.inl ⟨v, rest, hi, by simpa using h.symm⟩)
  · rename_i p rest hi
    unfold runPacket at h
    split at h
    · rename_i i hd
      exact .inr (.inr (.inr ⟨p, rest, i, hi, hd, h⟩))
    · rename_i e hd
      exact .inr (.inr (.inl ⟨p, rest, e, hi, hd, by simpa using h.symm⟩))

/-- `base + n <= size` (20_memory.md R46). -/
@[simp] theorem rangeLegal_iff (base n size : Nat) : rangeLegal base n size = true ↔ base + n ≤ size := by
  simp [rangeLegal]

@[simp] theorem State.bmemHas_iff (s : State) (base n : Nat) :
    s.bmemHas base n = true ↔ base + n ≤ s.params.bmemBytes := by
  simp [State.bmemHas]

@[simp] theorem State.wmemHas_iff (s : State) (base n : Nat) :
    s.wmemHas base n = true ↔ base + n ≤ s.params.wmemWords := by
  simp [State.wmemHas]

@[simp] theorem operandFits_iff (bits : Nat) (x : Operand) : operandFits bits x = true ↔ x.toNat < 2 ^ bits := by
  simp [operandFits]

@[simp] theorem operandNat_eq (x : Operand) : operandNat x = x.toNat := rfl

@[simp] theorem wholeDigits_iff (bits : Nat) : wholeDigits bits = true ↔ bits % 8 = 0 := by
  simp [wholeDigits]

@[simp] theorem rotateInReach_iff (bits : Nat) : rotateInReach bits = true ↔ bits ≤ 64 :=
  decide_eq_true_iff

/-- A codec word has 1 to 4 octets (30_encoding.md R66). -/
theorem octetsPerWord_pos (w : Width) : 0 < octetsPerWord w := by
  cases w <;> simp [octetsPerWord]

theorem octetsPerWord_le (w : Width) : octetsPerWord w ≤ 4 := by
  cases w <;> simp [octetsPerWord]

/-- The packet the host presents is the very next one the step takes. -/
theorem step_withFetchWord (s : State) (nbits w : Nat) :
    step (s.withFetchWord nbits w) = runPacket (packetOfBits nbits w) s := rfl

end Sys2Proof.Machine
end

