-- ==== Sys2Proof/Laws/Codec.lean ====
section
/-! SUPPORT. What the codec functions give: the number of words and octets, and each of them
(spec/42_codec.md R110, R112). -/

namespace Sys2Proof.Machine

theorem length_packGroups (o : ByteOrder) (q : Nat) (hq : 0 < q) (fuel : Nat) (octets : List Octet)
    (hf : octets.length ≤ fuel) : (packGroups o q fuel octets).length = (octets.length + (q - 1)) / q := by
  have hz : (q - 1) / q = 0 := Nat.div_eq_of_lt (by omega)
  induction fuel generalizing octets with
  | zero =>
    obtain rfl : octets = [] := by cases octets <;> simp_all
    simp [packGroups, hz]
  | succ fuel ih =>
    cases octets with
    | nil => simp [packGroups, hz]
    | cons a l =>
      simp only [packGroups, List.length_cons]
      rw [ih _ (by simp at hf ⊢; omega)]
      simp only [List.length_drop, List.length_cons]
      by_cases h : q ≤ l.length + 1
      · rw [show l.length + 1 + (q - 1) = (l.length + 1 - q + (q - 1)) + q by omega, Nat.add_div_right _ hq]
      · rw [show l.length + 1 - q = 0 by omega, Nat.zero_add, hz,
          show l.length + 1 + (q - 1) = l.length + q by omega, Nat.add_div_right _ hq,
          Nat.div_eq_of_lt (by omega)]

theorem length_stringToWords (w : Width) (o : ByteOrder) (octets : List Octet) :
    (stringToWords w o octets).length = ceilDiv octets.length (octetsPerWord w) :=
  length_packGroups o _ (octetsPerWord_pos w) _ octets le_rfl

theorem length_wordsToString (w : Width) (o : ByteOrder) (words : List Word) :
    (wordsToString w o words).length = words.length * octetsPerWord w := by
  induction words with
  | nil => simp [wordsToString]
  | cons a l ih =>
    simp only [wordsToString, List.flatMap_cons, List.length_append, List.length_cons] at ih ⊢
    rw [ih]
    simp [unpackWord]
    ring

@[simp] theorem length_md5Octets (x : Md5Acc) : (md5Octets x).length = 16 := by
  simp [md5Octets, length_wordsToString, Md5Acc.toList, octetsPerWord]

@[simp] theorem length_sha1Octets (x : Sha1Acc) : (sha1Octets x).length = 20 := by
  simp [sha1Octets, length_wordsToString, Sha1Acc.toList, octetsPerWord]

/-- Word `j` packs the octets from place `j * q` on. -/
theorem getElem?_packGroups (o : ByteOrder) (q : Nat) (hq : 0 < q) (fuel : Nat) (octets : List Octet)
    (hf : octets.length ≤ fuel) (j : Nat) (hj : j * q < octets.length) :
    (packGroups o q fuel octets)[j]? = some (BitVec.ofNat 32 (packOctets o q (octets.drop (j * q)))) := by
  induction fuel generalizing octets j with
  | zero => omega
  | succ fuel ih =>
    cases octets with
    | nil => simp at hj
    | cons a l =>
      cases j with
      | zero => simp [packGroups]
      | succ j =>
        simp only [packGroups, List.getElem?_cons_succ]
        have hs : (j + 1) * q = j * q + q := Nat.succ_mul j q
        rw [ih _ (by simp at hf ⊢; omega) j (by simp at hj ⊢; omega), List.drop_drop, Nat.add_comm q]
        rw [hs]

theorem getElem?_stringToWords (w : Width) (o : ByteOrder) (octets : List Octet) (j : Nat)
    (hj : j * octetsPerWord w < octets.length) :
    (stringToWords w o octets)[j]? =
      some (BitVec.ofNat 32 (packOctets o (octetsPerWord w) (octets.drop (j * octetsPerWord w)))) :=
  getElem?_packGroups o _ (octetsPerWord_pos w) _ octets le_rfl j hj

/-- Octet `k` of word `j` stands at place `j * q + k`. -/
theorem getElem?_wordsToString (w : Width) (o : ByteOrder) (words : List Word) (j k : Nat)
    (hj : j < words.length) (hk : k < octetsPerWord w) :
    (wordsToString w o words)[j * octetsPerWord w + k]? =
      some (BitVec.ofNat 8 ((wordAt words j).toNat / 256 ^ octetPlace o (octetsPerWord w) k)) := by
  induction words generalizing j with
  | nil => simp at hj
  | cons a l ih =>
    have hl : (unpackWord o (octetsPerWord w) a).length = octetsPerWord w := by simp [unpackWord]
    cases j with
    | zero =>
      simp only [wordsToString, List.flatMap_cons, Nat.zero_mul, Nat.zero_add]
      rw [List.getElem?_append_left (by omega)]
      simp [unpackWord, hk, wordAt]
    | succ j =>
      simp only [List.length_cons] at hj
      have hs : (j + 1) * octetsPerWord w = j * octetsPerWord w + octetsPerWord w := Nat.succ_mul _ _
      simp only [wordsToString, List.flatMap_cons]
      rw [List.getElem?_append_right (by omega), hl,
        show (j + 1) * octetsPerWord w + k - octetsPerWord w = j * octetsPerWord w + k by omega]
      simpa [wordsToString, wordAt] using ih j (by omega)

end Sys2Proof.Machine
end

