-- ==== Sys2Proof/Laws/Decode.lean ====
section
/-! SUPPORT. The opcode map is unambiguous: no command word selects two rows (spec/30_encoding.md R63, R64). -/

namespace Sys2Proof

/-- Some bit both rows look at differs, so no word selects both. -/
theorem opcodeRows_disjoint :
    opcodeRows.Pairwise fun r q => r.pattern &&& (r.mask &&& q.mask) ≠ q.pattern &&& (r.mask &&& q.mask) := by
  simp only [opcodeRows, opcodeRowsUi64, opcodeRowsCodec, opcodeRowsMd5, opcodeRowsSha1, opcodeRowsBuffer,
    List.cons_append, List.nil_append]
  repeat' apply List.Pairwise.cons
  all_goals simp

/-- A row's pattern has no bit outside its mask. -/
theorem opcodeRows_pattern_masked : ∀ r ∈ opcodeRows, r.pattern &&& r.mask = r.pattern := by
  simp [opcodeRows, opcodeRowsUi64, opcodeRowsCodec, opcodeRowsMd5, opcodeRowsSha1, opcodeRowsBuffer]

/-- The map has the 18 rows of the table. -/
theorem opcodeRows_length : opcodeRows.length = 18 := rfl

/-- What the decoder answers is built by a row that selects the word. -/
theorem decode_ok_iff (p : Packet) (i : Instr) :
    decode p = .ok i ↔ ∃ r, opcodeRows.find? (fun r => r.selects p.cmd) = some r ∧ i = r.build p := by
  unfold decode
  split
  · rename_i r hr
    simp [hr, eq_comm]
  · rename_i hn
    simp [hn]

/-- Two rows that select one word are one row. -/
theorem selects_unique (l : List OpcodeRow)
    (hl : l.Pairwise fun r q => r.pattern &&& (r.mask &&& q.mask) ≠ q.pattern &&& (r.mask &&& q.mask))
    (c : BitVec 32) (r : OpcodeRow) (hr : r ∈ l) (hs : r.selects c = true) :
    l.find? (fun r => r.selects c) = some r := by
  induction l with
  | nil => simp at hr
  | cons q l ih =>
    simp only [List.pairwise_cons] at hl
    rw [List.find?_cons]
    rcases List.mem_cons.mp hr with rfl | hr
    · simp [hs]
    · cases hq : q.selects c with
      | false => exact ih hl.2 hr
      | true =>
        exfalso
        simp only [OpcodeRow.selects, beq_iff_eq] at hs hq
        apply hl.1 r hr
        rw [← hs, ← hq]
        apply BitVec.eq_of_getLsbD_eq
        intro i _
        simp only [BitVec.getLsbD_and]
        cases c.getLsbD i <;> cases q.mask.getLsbD i <;> cases r.mask.getLsbD i <;> rfl

/-- A packet whose word a row selects decodes to what the row builds. -/
theorem decode_of_selects (p : Packet) (r : OpcodeRow) (hr : r ∈ opcodeRows) (hs : r.selects p.cmd = true) :
    decode p = .ok (r.build p) := by
  simp only [decode, selects_unique opcodeRows opcodeRows_disjoint p.cmd r hr hs]

/-- A packet decodes exactly when some row selects its word. -/
theorem decode_ok_iff_selects (p : Packet) (i : Instr) :
    decode p = .ok i ↔ ∃ r ∈ opcodeRows, r.selects p.cmd = true ∧ i = r.build p := by
  constructor
  · intro h
    obtain ⟨r, hr, hi⟩ := (decode_ok_iff p i).mp h
    exact ⟨r, List.mem_of_find?_eq_some hr, by simpa using List.find?_some hr, hi⟩
  · rintro ⟨r, hr, hs, rfl⟩
    exact decode_of_selects p r hr hs

end Sys2Proof
end

