-- ==== Sys2Proof/Laws/Digits.lean ====
section
/-! SUPPORT. Digits and values of UI64 registers. -/

namespace Sys2Proof.Machine

/-- Every digit is below 256 (10_state.md R21). -/
theorem digit_lt (x : Ui64) (i : Nat) : digit x i < 256 := BitVec.isLt _

/-- Digit `i` of a register built digit by digit. -/
theorem digit_ofFn (f : Fin 8 → Octet) (i : Nat) (h : i < 8) :
    digit (Vector.ofFn f) i = (f ⟨i, h⟩).toNat := by
  simp [digit, h]

@[simp] theorem digitSum_zero (x : Ui64) : digitSum x 0 = 0 := rfl

@[simp] theorem digitSum_succ (x : Ui64) (k : Nat) :
    digitSum x (k + 1) = digitSum x k + digit x k * 256 ^ k := rfl

/-- The lowest `k` digits are a number below `256^k`. -/
theorem digitSum_lt (x : Ui64) (k : Nat) : digitSum x k < 256 ^ k := by
  induction k with
  | zero => simp
  | succ k ih =>
    have h := digit_lt x k
    have : digit x k * 256 ^ k ≤ 255 * 256 ^ k := Nat.mul_le_mul_right _ (by omega)
    rw [digitSum_succ, pow_succ]
    omega

/-- The value of a register lies below `2^64` (10_state.md R21). -/
theorem val_lt (x : Ui64) : val x < 2 ^ 64 := by
  have := digitSum_lt x 8
  simpa [val] using this

/-- The value as eight digits. -/
theorem val_eq_digits (x : Ui64) :
    val x = digit x 0 + digit x 1 * 256 + digit x 2 * 256 ^ 2 + digit x 3 * 256 ^ 3 + digit x 4 * 256 ^ 4 +
      digit x 5 * 256 ^ 5 + digit x 6 * 256 ^ 6 + digit x 7 * 256 ^ 7 := by
  simp [val]

/-- Two registers with the same digits are the same register. -/
theorem ui64_ext (x y : Ui64) (h : ∀ i < 8, digit x i = digit y i) : x = y := by
  apply Vector.ext
  intro i hi
  have := h i hi
  simpa [digit, hi, BitVec.toNat_inj] using this

@[simp] theorem addCarry_zero (x y : Ui64) : addCarry x y 0 = 0 := rfl

@[simp] theorem addCarry_succ (x y : Ui64) (i : Nat) :
    addCarry x y (i + 1) = (digit x i + digit y i + addCarry x y i) / 256 := rfl

@[simp] theorem mulCarry_zero (x : Ui64) (n : Nat) : mulCarry x n 0 = 0 := rfl

@[simp] theorem mulCarry_succ (x : Ui64) (n i : Nat) :
    mulCarry x n (i + 1) = (digit x i * n + mulCarry x n i) / 256 := rfl

@[simp] theorem digitSumHigh_zero (x : Ui64) : digitSumHigh x 0 = 0 := rfl

@[simp] theorem digitSumHigh_succ (x : Ui64) (k : Nat) :
    digitSumHigh x (k + 1) = digitSumHigh x k * 256 + digit x k := rfl

end Sys2Proof.Machine
end

