-- ==== Sys2Proof/Laws/Exec.lean ====
section
/-! SUPPORT. One lemma per instruction: what `exec` answers, with every check as a comparison of numbers and
every next state as the old one with the fields it changes. Later proofs cite these and unfold no meaning. -/

namespace Sys2Proof.Machine

variable (s : State)

/-! ### the updates as records -/

theorem State.respond_eq (status : Status) (res : Operand) :
    s.respond status res = { s with response := some ⟨status, res⟩ } := (rfl)

theorem State.respond_writeU (r : Reg) (x : Ui64) (status : Status) (res : Operand) :
    (s.writeU r x).respond status res =
      { s with u := s.u.set r x, response := some ⟨status, res⟩ } := (rfl)

theorem State.respond_writeMa (acc : Md5Acc) (status : Status) (res : Operand) :
    (s.writeMa acc).respond status res = { s with ma := acc, response := some ⟨status, res⟩ } := (rfl)

theorem State.respond_writeSh (acc : Sha1Acc) (status : Status) (res : Operand) :
    (s.writeSh acc).respond status res = { s with sh := acc, response := some ⟨status, res⟩ } := (rfl)

theorem State.respond_writeBmem (a : Nat) (octets : List Octet) (status : Status) (res : Operand) :
    (s.writeBmem a octets).respond status res =
      { s with bmem := s.bmem.writeRange a octets, response := some ⟨status, res⟩ } := (rfl)

theorem State.respond_writeWmem (a : Nat) (words : List Word) (status : Status) (res : Operand) :
    (s.writeWmem a words).respond status res =
      { s with wmem := s.wmem.writeRange a words, response := some ⟨status, res⟩ } := (rfl)

theorem State.respond_writeMa_writeBmem (acc : Md5Acc) (a : Nat) (octets : List Octet) (status : Status)
    (res : Operand) :
    ((s.writeMa acc).writeBmem a octets).respond status res =
      { s with ma := acc, bmem := s.bmem.writeRange a octets, response := some ⟨status, res⟩ } := (rfl)

theorem State.respond_writeSh_writeBmem (acc : Sha1Acc) (a : Nat) (octets : List Octet) (status : Status)
    (res : Operand) :
    ((s.writeSh acc).writeBmem a octets).respond status res =
      { s with sh := acc, bmem := s.bmem.writeRange a octets, response := some ⟨status, res⟩ } := (rfl)

/-! ### FixedWidthInteger (UI64) -/

theorem exec_u64Ldn (rd : Reg) (n : Operand) :
    exec (.u64Ldn rd n) s =
      .next { s with u := s.u.set rd (fromNumber n.toNat), response := some ⟨.ok, 0#64⟩ } := (rfl)

theorem exec_u64Add (rd rs : Reg) :
    exec (.u64Add rd rs) s =
      .next { s with u := s.u.set rd (ui64Add s.u[rd] s.u[rs]).1,
                     response := some ⟨.ok, BitVec.ofNat 64 (ui64Add s.u[rd] s.u[rs]).2⟩ } := (rfl)

theorem exec_u64Muln (rd : Reg) (n : Operand) :
    exec (.u64Muln rd n) s =
      if n.toNat < 2 ^ 32 then
        .next { s with u := s.u.set rd (ui64MulN s.u[rd] n.toNat).1,
                       response := some ⟨.ok, BitVec.ofNat 64 (ui64MulN s.u[rd] n.toNat).2⟩ }
      else .next { s with response := some ⟨.illegalOperand, 0#64⟩ } := by
  simp only [exec, execU64Muln, operandFits_iff, Config.mulnBits, complete_eq, raise_eq, State.respond_writeU, State.readU]
  simp only [State.respond_eq]

theorem exec_u64Ror (rd : Reg) (bits : Nat) :
    exec (.u64Ror rd bits) s =
      if bits % 8 = 0 then
        if bits ≤ 64 then
          .next { s with u := s.u.set rd (ui64Ror s.params s.u[rd] bits).1,
                         response := some ⟨.ok, BitVec.ofNat 64 (ui64Ror s.params s.u[rd] bits).2⟩ }
        else .next { s with response := some ⟨.illegalOperand, 0#64⟩ }
      else .next { s with response := some ⟨.rorGranularity, 0#64⟩ } := by
  simp only [exec, execU64Ror, wholeDigits_iff, rotateInReach_iff, complete_eq, raise_eq, State.respond_writeU, State.readU]
  simp only [State.respond_eq]

/-! ### Byte/Word Codec -/

theorem exec_cdcS2w (w : Width) (o : ByteOrder) (src count dst : Operand) :
    exec (.cdcS2w w o src count dst) s =
      if src.toNat + count.toNat ≤ s.params.bmemBytes then
        if dst.toNat + ceilDiv count.toNat (octetsPerWord w) ≤ s.params.wmemWords then
          .next { s with
            wmem := s.wmem.writeRange dst.toNat (stringToWords w o (s.bmem.readRange src.toNat count.toNat)),
            response := some ⟨.ok, BitVec.ofNat 64 (ceilDiv count.toNat (octetsPerWord w))⟩ }
        else .next { s with response := some ⟨.addressRange, 0#64⟩ }
      else .next { s with response := some ⟨.addressRange, 0#64⟩ } := by
  simp only [exec, execCdcS2w, State.bmemHas_iff, State.wmemHas_iff, operandNat_eq, complete_eq, raise_eq,
    State.respond_writeWmem]
  simp only [State.respond_eq]

theorem exec_cdcW2s (w : Width) (o : ByteOrder) (src count dst : Operand) :
    exec (.cdcW2s w o src count dst) s =
      if src.toNat + count.toNat ≤ s.params.wmemWords then
        if dst.toNat + count.toNat * octetsPerWord w ≤ s.params.bmemBytes then
          .next { s with
            bmem := s.bmem.writeRange dst.toNat (wordsToString w o (s.wmem.readRange src.toNat count.toNat)),
            response := some ⟨.ok, BitVec.ofNat 64 (count.toNat * octetsPerWord w)⟩ }
        else .next { s with response := some ⟨.addressRange, 0#64⟩ }
      else .next { s with response := some ⟨.addressRange, 0#64⟩ } := by
  simp only [exec, execCdcW2s, State.bmemHas_iff, State.wmemHas_iff, operandNat_eq, complete_eq, raise_eq,
    State.respond_writeBmem]
  simp only [State.respond_eq]

/-! ### MD5 -/

theorem exec_md5Init :
    exec .md5Init s = .next { s with ma := md5Iv, response := some ⟨.ok, 0#64⟩ } := (rfl)

theorem exec_md5Block (widx : Operand) :
    exec (.md5Block widx) s =
      if widx.toNat + 16 ≤ s.params.wmemWords then
        .next { s with ma := md5Compress s.ma (s.wmem.readRange widx.toNat 16), response := some ⟨.ok, 0#64⟩ }
      else .next { s with response := some ⟨.addressRange, 0#64⟩ } := by
  simp only [exec, execMd5Block, State.wmemHas_iff, operandNat_eq, Config.blockWords, complete_eq, raise_eq,
    State.respond_writeMa]
  simp only [State.respond_eq]

theorem exec_md5Out (dst : Operand) :
    exec (.md5Out dst) s =
      if dst.toNat + 16 ≤ s.params.bmemBytes then
        .next { s with bmem := s.bmem.writeRange dst.toNat (md5Octets s.ma), response := some ⟨.ok, 0#64⟩ }
      else .next { s with response := some ⟨.addressRange, 0#64⟩ } := by
  simp only [exec, execMd5Out, State.bmemHas_iff, operandNat_eq, Config.md5OutOctets, complete_eq, raise_eq,
    State.respond_writeBmem]
  simp only [State.respond_eq]

theorem exec_md5Digest (src len dst : Operand) :
    exec (.md5Digest src len dst) s =
      if src.toNat + len.toNat ≤ s.params.bmemBytes then
        if dst.toNat + 16 ≤ s.params.bmemBytes then
          .next { s with
            ma := md5DigestAcc (s.bmem.readRange src.toNat len.toNat),
            bmem := s.bmem.writeRange dst.toNat (md5Digest (s.bmem.readRange src.toNat len.toNat)),
            response := some ⟨.ok, BitVec.ofNat 64 (blockCount len.toNat)⟩ }
        else .next { s with response := some ⟨.addressRange, 0#64⟩ }
      else .next { s with response := some ⟨.addressRange, 0#64⟩ } := by
  simp only [exec, execMd5Digest, md5Digest, State.bmemHas_iff, operandNat_eq, Config.md5OutOctets, complete_eq,
    raise_eq, State.respond_writeMa_writeBmem]
  simp only [State.respond_eq]

/-! ### SHA-1 -/

theorem exec_sha1Init :
    exec .sha1Init s = .next { s with sh := sha1Iv, response := some ⟨.ok, 0#64⟩ } := (rfl)

theorem exec_sha1Block (widx : Operand) :
    exec (.sha1Block widx) s =
      if widx.toNat + 16 ≤ s.params.wmemWords then
        .next { s with sh := sha1Compress s.sh (s.wmem.readRange widx.toNat 16), response := some ⟨.ok, 0#64⟩ }
      else .next { s with response := some ⟨.addressRange, 0#64⟩ } := by
  simp only [exec, execSha1Block, State.wmemHas_iff, operandNat_eq, Config.blockWords, complete_eq, raise_eq,
    State.respond_writeSh]
  simp only [State.respond_eq]

theorem exec_sha1Out (dst : Operand) :
    exec (.sha1Out dst) s =
      if dst.toNat + 20 ≤ s.params.bmemBytes then
        .next { s with bmem := s.bmem.writeRange dst.toNat (sha1Octets s.sh), response := some ⟨.ok, 0#64⟩ }
      else .next { s with response := some ⟨.addressRange, 0#64⟩ } := by
  simp only [exec, execSha1Out, State.bmemHas_iff, operandNat_eq, Config.sha1OutOctets, complete_eq, raise_eq,
    State.respond_writeBmem]
  simp only [State.respond_eq]

theorem exec_sha1Digest (src len dst : Operand) :
    exec (.sha1Digest src len dst) s =
      if src.toNat + len.toNat ≤ s.params.bmemBytes then
        if dst.toNat + 20 ≤ s.params.bmemBytes then
          .next { s with
            sh := sha1DigestAcc (s.bmem.readRange src.toNat len.toNat),
            bmem := s.bmem.writeRange dst.toNat (sha1Digest (s.bmem.readRange src.toNat len.toNat)),
            response := some ⟨.ok, BitVec.ofNat 64 (blockCount len.toNat)⟩ }
        else .next { s with response := some ⟨.addressRange, 0#64⟩ }
      else .next { s with response := some ⟨.addressRange, 0#64⟩ } := by
  simp only [exec, execSha1Digest, sha1Digest, State.bmemHas_iff, operandNat_eq, Config.sha1OutOctets,
    complete_eq, raise_eq, State.respond_writeSh_writeBmem]
  simp only [State.respond_eq]

/-! ### buffer access -/

theorem exec_bmWr (addr octet : Operand) :
    exec (.bmWr addr octet) s =
      if octet.toNat < 2 ^ 8 then
        if addr.toNat + 1 ≤ s.params.bmemBytes then
          .next { s with bmem := s.bmem.writeRange addr.toNat [operandOctet octet],
                         response := some ⟨.ok, 0#64⟩ }
        else .next { s with response := some ⟨.addressRange, 0#64⟩ }
      else .next { s with response := some ⟨.illegalOperand, 0#64⟩ } := by
  simp only [exec, execBmWr, operandFits_iff, State.bmemHas_iff, operandNat_eq, complete_eq, raise_eq,
    State.respond_writeBmem]
  simp only [State.respond_eq]

theorem exec_bmRd (addr : Operand) :
    exec (.bmRd addr) s =
      if addr.toNat + 1 ≤ s.params.bmemBytes then
        .next { s with response := some ⟨.ok, BitVec.ofNat 64 (s.bmem.read addr.toNat).toNat⟩ }
      else .next { s with response := some ⟨.addressRange, 0#64⟩ } := by
  simp only [exec, execBmRd, State.bmemHas_iff, operandNat_eq, complete_eq, raise_eq, State.respond_eq]

theorem exec_wmWr (idx word : Operand) :
    exec (.wmWr idx word) s =
      if word.toNat < 2 ^ 32 then
        if idx.toNat + 1 ≤ s.params.wmemWords then
          .next { s with wmem := s.wmem.writeRange idx.toNat [operandWord word],
                         response := some ⟨.ok, 0#64⟩ }
        else .next { s with response := some ⟨.addressRange, 0#64⟩ }
      else .next { s with response := some ⟨.illegalOperand, 0#64⟩ } := by
  simp only [exec, execWmWr, operandFits_iff, State.wmemHas_iff, operandNat_eq, complete_eq, raise_eq,
    State.respond_writeWmem]
  simp only [State.respond_eq]

theorem exec_wmRd (idx : Operand) :
    exec (.wmRd idx) s =
      if idx.toNat + 1 ≤ s.params.wmemWords then
        .next { s with response := some ⟨.ok, BitVec.ofNat 64 (s.wmem.read idx.toNat).toNat⟩ }
      else .next { s with response := some ⟨.addressRange, 0#64⟩ } := by
  simp only [exec, execWmRd, State.wmemHas_iff, operandNat_eq, complete_eq, raise_eq, State.respond_eq]

end Sys2Proof.Machine
end

