-- ==== Sys2Proof/Laws/Memory.lean ====
section
/-! SUPPORT. What the memory operations do: reading after writing, and that every operation keeps the
canonical form and stays inside the memory. -/

namespace Sys2Proof.Machine

variable {w : Nat}

/-! ### reading -/

@[simp] theorem Memory.read_nil (a : Nat) : Memory.read ([] : Memory w) a = Memory.unlisted := rfl

@[simp] theorem Memory.read_cons (c : Nat × BitVec w) (m : Memory w) (a : Nat) :
    Memory.read (c :: m) a = if c.1 = a then c.2 else m.read a := rfl

/-- An address below every listed one reads as unlisted. -/
theorem Memory.read_of_lt (m : Memory w) (a : Nat) (h : ∀ c ∈ m, a < c.1) : m.read a = Memory.unlisted := by
  induction m with
  | nil => rfl
  | cons c m ih =>
    have hc := h c (by simp)
    simp only [Memory.read_cons]
    rw [if_neg (by omega)]
    exact ih fun d hd => h d (by simp [hd])

/-- What a memory with one more cell in front reads as, when the cell's address lies below the others. -/
theorem Memory.read_consCell (m : Memory w) (a : Nat) (v : BitVec w) (h : ∀ c ∈ m, a < c.1) (b : Nat) :
    (Memory.consCell a v m).read b = if a = b then v else m.read b := by
  unfold Memory.consCell
  split
  · rename_i hv
    subst hv
    split
    · subst b; exact m.read_of_lt a h
    · rfl
  · rfl

/-- Reading after writing, everywhere (20_memory.md R48). -/
theorem Memory.read_write (m : Memory w) (hm : m.Pairwise fun x y => x.1 < y.1) (a : Nat) (v : BitVec w)
    (b : Nat) : (m.write a v).read b = if a = b then v else m.read b := by
  induction m with
  | nil => exact Memory.read_consCell [] a v (by simp) b
  | cons c m ih =>
    obtain ⟨hc, hm⟩ := List.pairwise_cons.mp hm
    simp only [Memory.write]
    split
    · rename_i h
      rw [Memory.read_consCell]
      intro d hd
      rcases List.mem_cons.mp hd with rfl | hd
      · exact h
      · exact h.trans (hc d hd)
    · split
      · rename_i h _
        subst a
        rw [Memory.read_consCell m _ v hc]
        simp only [Memory.read_cons]
        split <;> rfl
      · simp only [Memory.read_cons, ih hm]
        by_cases h1 : c.1 = b <;> by_cases h2 : a = b <;> simp_all

/-! ### the addresses a write can list -/

theorem Memory.mem_consCell (m : Memory w) (a : Nat) (v : BitVec w) (c : Nat × BitVec w)
    (h : c ∈ Memory.consCell a v m) : c = (a, v) ∧ v ≠ Memory.unlisted ∨ c ∈ m := by
  unfold Memory.consCell at h
  split at h
  · exact .inr h
  · rename_i hv
    rcases List.mem_cons.mp h with rfl | h
    · exact .inl ⟨rfl, hv⟩
    · exact .inr h

theorem Memory.mem_write (m : Memory w) (a : Nat) (v : BitVec w) (c : Nat × BitVec w)
    (h : c ∈ m.write a v) : c = (a, v) ∧ v ≠ Memory.unlisted ∨ c ∈ m := by
  induction m with
  | nil => exact Memory.mem_consCell [] a v c h
  | cons d m ih =>
    simp only [Memory.write] at h
    split at h
    · exact Memory.mem_consCell _ a v c h
    · split at h
      · exact (Memory.mem_consCell m a v c h).imp_right (List.mem_cons_of_mem _)
      · rcases List.mem_cons.mp h with rfl | h
        · exact .inr (by simp)
        · exact (ih h).imp_right (List.mem_cons_of_mem _)

/-! ### the canonical form is kept -/

theorem Memory.wf_consCell (m : Memory w) (hm : m.wf) (a : Nat) (v : BitVec w) (h : ∀ c ∈ m, a < c.1) :
    (Memory.consCell a v m).wf := by
  unfold Memory.consCell
  split
  · exact hm
  · rename_i hv
    exact ⟨List.pairwise_cons.mpr ⟨h, hm.1⟩, by simpa using ⟨hv, fun x y hxy => hm.2 (x, y) hxy⟩⟩

theorem Memory.wf_tail (c : Nat × BitVec w) (m : Memory w) (h : Memory.wf (c :: m)) : Memory.wf m :=
  ⟨(List.pairwise_cons.mp h.1).2, fun d hd => h.2 d (by simp [hd])⟩

theorem Memory.wf_write (m : Memory w) (hm : m.wf) (a : Nat) (v : BitVec w) : (m.write a v).wf := by
  induction m with
  | nil => exact Memory.wf_consCell [] hm a v (by simp)
  | cons c m ih =>
    have hc := (List.pairwise_cons.mp hm.1).1
    have ht := Memory.wf_tail c m hm
    simp only [Memory.write]
    split
    · rename_i h
      refine Memory.wf_consCell _ hm a v fun d hd => ?_
      rcases List.mem_cons.mp hd with rfl | hd
      · exact h
      · exact h.trans (hc d hd)
    · split
      · rename_i h _
        subst a
        exact Memory.wf_consCell m ht _ v hc
      · rename_i h1 h2
        refine ⟨List.pairwise_cons.mpr ⟨fun d hd => ?_, (ih ht).1⟩, fun d hd => ?_⟩
        · rcases Memory.mem_write m a v d hd with ⟨rfl, _⟩ | hd
          · simp only; omega
          · exact hc d hd
        · rcases List.mem_cons.mp hd with rfl | hd
          · exact hm.2 _ (by simp)
          · exact (ih ht).2 d hd

theorem Memory.inside_write (size : Nat) (m : Memory w) (hm : m.inside size) (a : Nat) (ha : a < size)
    (v : BitVec w) : (m.write a v).inside size := by
  intro c hc
  rcases Memory.mem_write m a v c hc with ⟨rfl, _⟩ | hc
  · exact ha
  · exact hm c hc

/-! ### ranges -/

@[simp] theorem Memory.length_readRange (m : Memory w) (a n : Nat) : (m.readRange a n).length = n := by
  induction n generalizing a with
  | zero => rfl
  | succ n ih => simp [Memory.readRange, ih]

/-- Cell `j` of a range is the cell at `a + j` (00_scope.md R13). -/
theorem Memory.getElem?_readRange (m : Memory w) (a n j : Nat) (h : j < n) :
    (m.readRange a n)[j]? = some (m.read (a + j)) := by
  induction n generalizing a j with
  | zero => omega
  | succ n ih =>
    cases j with
    | zero => simp [Memory.readRange]
    | succ j =>
      have := ih (a + 1) j (by omega)
      simpa [Memory.readRange, Nat.add_assoc, Nat.add_comm 1 j] using this

theorem Memory.wf_writeRange (vs : List (BitVec w)) (m : Memory w) (hm : m.wf) (a : Nat) :
    (m.writeRange a vs).wf := by
  induction vs generalizing m a with
  | nil => exact hm
  | cons v vs ih => exact ih _ (Memory.wf_write m hm a v) _

theorem Memory.inside_writeRange (size : Nat) (vs : List (BitVec w)) (m : Memory w) (hm : m.inside size)
    (a : Nat) (h : a + vs.length ≤ size) : (m.writeRange a vs).inside size := by
  induction vs generalizing m a with
  | nil => exact hm
  | cons v vs ih =>
    simp only [List.length_cons] at h
    exact ih _ (Memory.inside_write size m hm a (by omega) v) (a + 1) (by omega)

/-- What a memory reads as after a range is written: the new cells inside the range, the old ones outside. -/
theorem Memory.read_writeRange (vs : List (BitVec w)) (m : Memory w) (hm : m.wf) (a b : Nat) :
    (m.writeRange a vs).read b = if a ≤ b then vs[b - a]?.getD (m.read b) else m.read b := by
  induction vs generalizing m a with
  | nil => simp [Memory.writeRange]
  | cons v vs ih =>
    rw [Memory.writeRange, ih _ (Memory.wf_write m hm a v), Memory.read_write m hm.1]
    rcases Nat.lt_trichotomy b a with h | rfl | h
    · rw [if_neg (by omega), if_neg (by omega), if_neg (by omega)]
    · simp
    · obtain ⟨d, rfl⟩ : ∃ d, b = a + 1 + d := ⟨b - (a + 1), by omega⟩
      rw [if_pos (by omega), if_neg (by omega), if_pos (by omega)]
      have e1 : a + 1 + d - (a + 1) = d := by omega
      have e2 : a + 1 + d - a = d + 1 := by omega
      simp [e1, e2]

/-- Writing nothing changes nothing. -/
@[simp] theorem Memory.writeRange_nil (m : Memory w) (a : Nat) : m.writeRange a [] = m := rfl

/-! ### memories from a list of cells -/

theorem Memory.wf_foldl_write (size : Nat) (cells : List (Nat × BitVec w)) (m : Memory w) (hm : m.wf)
    (hi : m.inside size) :
    (cells.foldl (fun m c => if c.1 < size then m.write c.1 c.2 else m) m).wf ∧
      (cells.foldl (fun m c => if c.1 < size then m.write c.1 c.2 else m) m).inside size := by
  induction cells generalizing m with
  | nil => exact ⟨hm, hi⟩
  | cons c cells ih =>
    simp only [List.foldl_cons]
    split
    · rename_i h
      exact ih _ (Memory.wf_write m hm _ _) (Memory.inside_write size m hi _ h _)
    · exact ih m hm hi

theorem Memory.wf_ofCells (size : Nat) (cells : List (Nat × BitVec w)) : (Memory.ofCells size cells).wf :=
  (Memory.wf_foldl_write size cells [] ⟨by simp, by simp⟩ (by intro c hc; simp at hc)).1

theorem Memory.inside_ofCells (size : Nat) (cells : List (Nat × BitVec w)) :
    (Memory.ofCells size cells).inside size :=
  (Memory.wf_foldl_write size cells [] ⟨by simp, by simp⟩ (by intro c hc; simp at hc)).2

/-! ### equal reads, equal memories -/

/-- Two canonical memories that read the same everywhere are the same data. -/
theorem Memory.ext_of_wf (m n : Memory w) (hm : m.wf) (hn : n.wf) (h : ∀ a, m.read a = n.read a) : m = n := by
  induction m generalizing n with
  | nil =>
    cases n with
    | nil => rfl
    | cons d n => exact absurd (by simpa using (h d.1).symm) (hn.2 d (by simp))
  | cons c m ih =>
    have hcm := (List.pairwise_cons.mp hm.1).1
    cases n with
    | nil => exact absurd (by simpa using h c.1) (hm.2 c (by simp))
    | cons d n =>
      have hdn := (List.pairwise_cons.mp hn.1).1
      have key : c.1 = d.1 := by
        rcases Nat.lt_trichotomy c.1 d.1 with hlt | heq | hlt
        · exfalso
          have h1 := h c.1
          rw [Memory.read_of_lt (d :: n) c.1 (by
            intro e he
            rcases List.mem_cons.mp he with rfl | he
            · exact hlt
            · exact hlt.trans (hdn e he))] at h1
          exact hm.2 c (by simp) (by simpa using h1)
        · exact heq
        · exfalso
          have h1 := h d.1
          rw [Memory.read_of_lt (c :: m) d.1 (by
            intro e he
            rcases List.mem_cons.mp he with rfl | he
            · exact hlt
            · exact hlt.trans (hcm e he))] at h1
          exact hn.2 d (by simp) (by simpa using h1.symm)
      have hval : c.2 = d.2 := by
        have h1 := h c.1
        simpa [key] using h1
      have htail : m = n := by
        refine ih n (Memory.wf_tail c m hm) (Memory.wf_tail d n hn) fun a => ?_
        have h1 := h a
        simp only [Memory.read_cons] at h1
        by_cases e : c.1 = a
        · rw [Memory.read_of_lt m a (fun x hx => e ▸ hcm x hx),
            Memory.read_of_lt n a (fun x hx => e ▸ key ▸ hdn x hx)]
        · rw [if_neg e, if_neg (key ▸ e)] at h1
          exact h1
      rw [htail, show c = d from Prod.ext key hval]

end Sys2Proof.Machine
end

