-- ==== Sys2Proof/Laws/Effect.lean ====
section
/-! SUPPORT. Everything `exec` can do, said once: it answers a next state whose parameters and inbox are the old
ones, whose memories are the old ones or one in-range write away, and whose response is `OK` or one of the
faults of the command, a fault leaving everything but the response. -/

namespace Sys2Proof.Machine

/-- The effect of executing `i` in `s`, the next state being `t`. -/
structure Effect (i : Instr) (s t : State) : Prop where
  params : t.params = s.params
  inbox  : t.inbox = s.inbox
  bmem   : t.bmem = s.bmem ∨
    ∃ (a : Nat) (octets : List Octet), a + octets.length ≤ s.params.bmemBytes ∧ t.bmem = s.bmem.writeRange a octets
  wmem   : t.wmem = s.wmem ∨
    ∃ (a : Nat) (words : List Word), a + words.length ≤ s.params.wmemWords ∧ t.wmem = s.wmem.writeRange a words
  answer : ∃ (status : Status) (res : Operand), t.response = some ⟨status, res⟩ ∧ status ≠ .illegalCommand ∧
    (status ≠ .ok → mayRaise i status = true ∧ t = { s with response := some ⟨status, 0#64⟩ })

theorem Effect.of_fault (i : Instr) (s : State) (status : Status) (h : mayRaise i status = true)
    (hc : status ≠ .illegalCommand) : Effect i s { s with response := some ⟨status, 0#64⟩ } :=
  ⟨rfl, rfl, .inl rfl, .inl rfl, _, _, rfl, hc, fun _ => ⟨h, rfl⟩⟩

theorem Effect.of_ok (i : Instr) (s t : State) (res : Operand) (hp : t.params = s.params) (hi : t.inbox = s.inbox)
    (hb : t.bmem = s.bmem ∨
      ∃ (a : Nat) (l : List Octet), a + l.length ≤ s.params.bmemBytes ∧ t.bmem = s.bmem.writeRange a l)
    (hw : t.wmem = s.wmem ∨
      ∃ (a : Nat) (l : List Word), a + l.length ≤ s.params.wmemWords ∧ t.wmem = s.wmem.writeRange a l)
    (hr : t.response = some ⟨.ok, res⟩) : Effect i s t :=
  ⟨hp, hi, hb, hw, _, _, hr, by simp, by simp⟩

theorem exec_effect (i : Instr) (s : State) : ∃ t, exec i s = .next t ∧ Effect i s t := by
  cases i with
  | u64Ldn rd n => exact ⟨_, exec_u64Ldn s rd n, .of_ok _ _ _ _ rfl rfl (.inl rfl) (.inl rfl) rfl⟩
  | u64Add rd rs => exact ⟨_, exec_u64Add s rd rs, .of_ok _ _ _ _ rfl rfl (.inl rfl) (.inl rfl) rfl⟩
  | u64Muln rd n =>
    rw [exec_u64Muln]
    split
    · exact ⟨_, rfl, .of_ok _ _ _ _ rfl rfl (.inl rfl) (.inl rfl) rfl⟩
    · exact ⟨_, rfl, .of_fault _ _ _ rfl (by simp)⟩
  | u64Ror rd bits =>
    rw [exec_u64Ror]
    split
    · split
      · exact ⟨_, rfl, .of_ok _ _ _ _ rfl rfl (.inl rfl) (.inl rfl) rfl⟩
      · exact ⟨_, rfl, .of_fault _ _ _ rfl (by simp)⟩
    · exact ⟨_, rfl, .of_fault _ _ _ rfl (by simp)⟩
  | cdcS2w w o src count dst =>
    rw [exec_cdcS2w]
    split
    · split
      · next h =>
        exact ⟨_, rfl, .of_ok _ _ _ _ rfl rfl (.inl rfl)
          (.inr ⟨_, _, by simpa [length_stringToWords] using h, rfl⟩) rfl⟩
      · exact ⟨_, rfl, .of_fault _ _ _ rfl (by simp)⟩
    · exact ⟨_, rfl, .of_fault _ _ _ rfl (by simp)⟩
  | cdcW2s w o src count dst =>
    rw [exec_cdcW2s]
    split
    · split
      · next h =>
        exact ⟨_, rfl, .of_ok _ _ _ _ rfl rfl
          (.inr ⟨_, _, by simpa [length_wordsToString] using h, rfl⟩) (.inl rfl) rfl⟩
      · exact ⟨_, rfl, .of_fault _ _ _ rfl (by simp)⟩
    · exact ⟨_, rfl, .of_fault _ _ _ rfl (by simp)⟩
  | md5Init => exact ⟨_, exec_md5Init s, .of_ok _ _ _ _ rfl rfl (.inl rfl) (.inl rfl) rfl⟩
  | md5Block widx =>
    rw [exec_md5Block]
    split
    · exact ⟨_, rfl, .of_ok _ _ _ _ rfl rfl (.inl rfl) (.inl rfl) rfl⟩
    · exact ⟨_, rfl, .of_fault _ _ _ rfl (by simp)⟩
  | md5Out dst =>
    have hl : (md5Octets s.ma).length = 16 := length_md5Octets _
    rw [exec_md5Out]
    generalize md5Octets s.ma = octets at hl ⊢
    split
    · next h => exact ⟨_, rfl, .of_ok _ _ _ _ rfl rfl (.inr ⟨_, octets, by rwa [hl], rfl⟩) (.inl rfl) rfl⟩
    · exact ⟨_, rfl, .of_fault _ _ _ rfl (by simp)⟩
  | md5Digest src len dst =>
    have hl : (md5Digest (s.bmem.readRange src.toNat len.toNat)).length = 16 := length_md5Octets _
    rw [exec_md5Digest]
    generalize md5Digest (s.bmem.readRange src.toNat len.toNat) = octets at hl ⊢
    generalize md5DigestAcc (s.bmem.readRange src.toNat len.toNat) = acc
    split
    · split
      · next h => exact ⟨_, rfl, .of_ok _ _ _ _ rfl rfl (.inr ⟨_, octets, by rwa [hl], rfl⟩) (.inl rfl) rfl⟩
      · exact ⟨_, rfl, .of_fault _ _ _ rfl (by simp)⟩
    · exact ⟨_, rfl, .of_fault _ _ _ rfl (by simp)⟩
  | sha1Init => exact ⟨_, exec_sha1Init s, .of_ok _ _ _ _ rfl rfl (.inl rfl) (.inl rfl) rfl⟩
  | sha1Block widx =>
    rw [exec_sha1Block]
    split
    · exact ⟨_, rfl, .of_ok _ _ _ _ rfl rfl (.inl rfl) (.inl rfl) rfl⟩
    · exact ⟨_, rfl, .of_fault _ _ _ rfl (by simp)⟩
  | sha1Out dst =>
    have hl : (sha1Octets s.sh).length = 20 := length_sha1Octets _
    rw [exec_sha1Out]
    generalize sha1Octets s.sh = octets at hl ⊢
    split
    · next h => exact ⟨_, rfl, .of_ok _ _ _ _ rfl rfl (.inr ⟨_, octets, by rwa [hl], rfl⟩) (.inl rfl) rfl⟩
    · exact ⟨_, rfl, .of_fault _ _ _ rfl (by simp)⟩
  | sha1Digest src len dst =>
    have hl : (sha1Digest (s.bmem.readRange src.toNat len.toNat)).length = 20 := length_sha1Octets _
    rw [exec_sha1Digest]
    generalize sha1Digest (s.bmem.readRange src.toNat len.toNat) = octets at hl ⊢
    generalize sha1DigestAcc (s.bmem.readRange src.toNat len.toNat) = acc
    split
    · split
      · next h => exact ⟨_, rfl, .of_ok _ _ _ _ rfl rfl (.inr ⟨_, octets, by rwa [hl], rfl⟩) (.inl rfl) rfl⟩
      · exact ⟨_, rfl, .of_fault _ _ _ rfl (by simp)⟩
    · exact ⟨_, rfl, .of_fault _ _ _ rfl (by simp)⟩
  | bmWr addr octet =>
    rw [exec_bmWr]
    split
    · split
      · next h => exact ⟨_, rfl, .of_ok _ _ _ _ rfl rfl (.inr ⟨_, _, by simpa using h, rfl⟩) (.inl rfl) rfl⟩
      · exact ⟨_, rfl, .of_fault _ _ _ rfl (by simp)⟩
    · exact ⟨_, rfl, .of_fault _ _ _ rfl (by simp)⟩
  | bmRd addr =>
    rw [exec_bmRd]
    split
    · exact ⟨_, rfl, .of_ok _ _ _ _ rfl rfl (.inl rfl) (.inl rfl) rfl⟩
    · exact ⟨_, rfl, .of_fault _ _ _ rfl (by simp)⟩
  | wmWr idx word =>
    rw [exec_wmWr]
    split
    · split
      · next h => exact ⟨_, rfl, .of_ok _ _ _ _ rfl rfl (.inl rfl) (.inr ⟨_, _, by simpa using h, rfl⟩) rfl⟩
      · exact ⟨_, rfl, .of_fault _ _ _ rfl (by simp)⟩
    · exact ⟨_, rfl, .of_fault _ _ _ rfl (by simp)⟩
  | wmRd idx =>
    rw [exec_wmRd]
    split
    · exact ⟨_, rfl, .of_ok _ _ _ _ rfl rfl (.inl rfl) (.inl rfl) rfl⟩
    · exact ⟨_, rfl, .of_fault _ _ _ rfl (by simp)⟩

end Sys2Proof.Machine
end

