-- ==== Sys2Proof/Laws/PerInstr.lean ====
section
/-! SUPPORT. Statements made for every instruction, one lemma per constructor. The family `EncodedWord`: the
command word of an encoded instruction shows the match under the mask of its row of spec/opcode_table.json
(30_encoding.md R63, R64). -/

namespace Sys2Proof.Laws

/-- The (match, mask) pair of an instruction's row, as spec/opcode_table.json prints it. -/
def tableRow : Instr → BitVec 32 × BitVec 32
  | .u64Ldn _ _ => (0x00000010#32, 0xFFFFFCFF#32)
  | .u64Add _ _ => (0x00000011#32, 0xFFFFF0FF#32)
  | .u64Muln _ _ => (0x00000012#32, 0xFFFFFCFF#32)
  | .u64Ror _ _ => (0x00000013#32, 0xFFC07CFF#32)
  | .cdcS2w _ _ _ _ _ => (0x00000020#32, 0xFFFF8FFF#32)
  | .cdcW2s _ _ _ _ _ => (0x00000021#32, 0xFFFF8FFF#32)
  | .md5Init => (0x00000030#32, 0xFFFFFFFF#32)
  | .md5Block _ => (0x00000031#32, 0xFFFFFFFF#32)
  | .md5Out _ => (0x00000032#32, 0xFFFFFFFF#32)
  | .md5Digest _ _ _ => (0x00000033#32, 0xFFFFFFFF#32)
  | .sha1Init => (0x00000040#32, 0xFFFFFFFF#32)
  | .sha1Block _ => (0x00000041#32, 0xFFFFFFFF#32)
  | .sha1Out _ => (0x00000042#32, 0xFFFFFFFF#32)
  | .sha1Digest _ _ _ => (0x00000043#32, 0xFFFFFFFF#32)
  | .bmWr _ _ => (0x00000050#32, 0xFFFFFFFF#32)
  | .bmRd _ => (0x00000051#32, 0xFFFFFFFF#32)
  | .wmWr _ _ => (0x00000052#32, 0xFFFFFFFF#32)
  | .wmRd _ => (0x00000053#32, 0xFFFFFFFF#32)

/-- The encoded word shows its row. -/
def EncodedWord.Statement (i : Instr) : Prop :=
  i.wellFormed = true → (encode i).cmd &&& (tableRow i).2 = (tableRow i).1

theorem EncodedWord.u64Ldn (rd : Reg) (n : Operand) : EncodedWord.Statement (.u64Ldn rd n) := by
  intro h
  clear h
  simp only [encode, tableRow]
  revert rd
  decide

theorem EncodedWord.u64Add (rd rs : Reg) : EncodedWord.Statement (.u64Add rd rs) := by
  intro h
  clear h
  simp only [encode, tableRow]
  revert rd rs
  decide

theorem EncodedWord.u64Muln (rd : Reg) (n : Operand) : EncodedWord.Statement (.u64Muln rd n) := by
  intro h
  clear h
  simp only [encode, tableRow]
  revert rd
  decide

theorem EncodedWord.u64Ror (rd : Reg) (bits : Nat) : EncodedWord.Statement (.u64Ror rd bits) := by
  intro h
  clear h
  simp only [encode, tableRow]
  generalize BitVec.ofNat 7 bits = imm7
  revert rd imm7
  decide +kernel

theorem EncodedWord.cdcS2w (width : Width) (order : ByteOrder) (src count dst : Operand) :
    EncodedWord.Statement (.cdcS2w width order src count dst) := by
  intro h
  clear h
  simp only [encode, tableRow]
  cases width <;> cases order <;> decide

theorem EncodedWord.cdcW2s (width : Width) (order : ByteOrder) (src count dst : Operand) :
    EncodedWord.Statement (.cdcW2s width order src count dst) := by
  intro h
  clear h
  simp only [encode, tableRow]
  cases width <;> cases order <;> decide

theorem EncodedWord.md5Init : EncodedWord.Statement .md5Init := by
  intro h
  clear h
  simp only [encode, tableRow]
  decide

theorem EncodedWord.md5Block (widx : Operand) : EncodedWord.Statement (.md5Block widx) := by
  intro h
  clear h
  simp only [encode, tableRow]
  decide

theorem EncodedWord.md5Out (dst : Operand) : EncodedWord.Statement (.md5Out dst) := by
  intro h
  clear h
  simp only [encode, tableRow]
  decide

theorem EncodedWord.md5Digest (src len dst : Operand) : EncodedWord.Statement (.md5Digest src len dst) := by
  intro h
  clear h
  simp only [encode, tableRow]
  decide

theorem EncodedWord.sha1Init : EncodedWord.Statement .sha1Init := by
  intro h
  clear h
  simp only [encode, tableRow]
  decide

theorem EncodedWord.sha1Block (widx : Operand) : EncodedWord.Statement (.sha1Block widx) := by
  intro h
  clear h
  simp only [encode, tableRow]
  decide

theorem EncodedWord.sha1Out (dst : Operand) : EncodedWord.Statement (.sha1Out dst) := by
  intro h
  clear h
  simp only [encode, tableRow]
  decide

theorem EncodedWord.sha1Digest (src len dst : Operand) : EncodedWord.Statement (.sha1Digest src len dst) := by
  intro h
  clear h
  simp only [encode, tableRow]
  decide

theorem EncodedWord.bmWr (addr octet : Operand) : EncodedWord.Statement (.bmWr addr octet) := by
  intro h
  clear h
  simp only [encode, tableRow]
  decide

theorem EncodedWord.bmRd (addr : Operand) : EncodedWord.Statement (.bmRd addr) := by
  intro h
  clear h
  simp only [encode, tableRow]
  decide

theorem EncodedWord.wmWr (idx word : Operand) : EncodedWord.Statement (.wmWr idx word) := by
  intro h
  clear h
  simp only [encode, tableRow]
  decide

theorem EncodedWord.wmRd (idx : Operand) : EncodedWord.Statement (.wmRd idx) := by
  intro h
  clear h
  simp only [encode, tableRow]
  decide

end Sys2Proof.Laws
end

