-- ==== Sys2Proof/Tests/Slice0.lean ====
section
/-! SUPPORT. The model's own tests. Every expected value is one the spec prints, most of them in
spec/95_test_vectors.md (groups V1 to V8), or worked out by hand from a rule; none is the model's own answer. The
second half shows, for every statement with hypotheses, a state and operands that meet them, at the ends of their
ranges. -/

namespace Sys2Proof.Tests

open Sys2Proof Sys2Proof.Machine

/-! ### Well-formedness -/

/-- 30_encoding.md R62: `imm7` holds 0 to 127. -/
theorem test_wf_ror_128_refused : (Instr.u64Ror 0 128).wellFormed = false := by decide

theorem test_wf_ror_127_accepted : (Instr.u64Ror 0 127).wellFormed = true := by decide

/-! ### Decoding: one written-out word per constructor (30_encoding.md R62, R64; V7, V3, P1 to P5) -/

theorem test_decode_ldn : decode ⟨0x00000310#32, 7, 0, 0⟩ = .ok (.u64Ldn 3 7) := by decide
/-- P1 packet 5: `rd = 0`, `rs = 2`, so the fields are not swapped. -/
theorem test_decode_add : decode ⟨0x00000811#32, 0, 0, 0⟩ = .ok (.u64Add 0 2) := by decide
theorem test_decode_muln : decode ⟨0x00000312#32, 9, 0, 0⟩ = .ok (.u64Muln 3 9) := by decide
theorem test_decode_ror : decode ⟨0x003F8313#32, 0, 0, 0⟩ = .ok (.u64Ror 3 127) := by decide
theorem test_decode_s2w : decode ⟨0x00006020#32, 1, 2, 3⟩ = .ok (.cdcS2w .w24 .big 1 2 3) := by decide
theorem test_decode_w2s : decode ⟨0x00001021#32, 2, 1, 16⟩ = .ok (.cdcW2s .w16 .little 2 1 16) := by decide
theorem test_decode_md5_init : decode ⟨0x00000030#32, 0, 0, 0⟩ = .ok .md5Init := by decide
theorem test_decode_md5_block : decode ⟨0x00000031#32, 16, 0, 0⟩ = .ok (.md5Block 16) := by decide
theorem test_decode_md5_out : decode ⟨0x00000032#32, 256, 0, 0⟩ = .ok (.md5Out 256) := by decide
theorem test_decode_md5_digest : decode ⟨0x00000033#32, 0, 19, 256⟩ = .ok (.md5Digest 0 19 256) := by decide
theorem test_decode_sha1_init : decode ⟨0x00000040#32, 0, 0, 0⟩ = .ok .sha1Init := by decide
theorem test_decode_sha1_block : decode ⟨0x00000041#32, 5, 0, 0⟩ = .ok (.sha1Block 5) := by decide
theorem test_decode_sha1_out : decode ⟨0x00000042#32, 256, 0, 0⟩ = .ok (.sha1Out 256) := by decide
theorem test_decode_sha1_digest : decode ⟨0x00000043#32, 0, 19, 256⟩ = .ok (.sha1Digest 0 19 256) := by decide
theorem test_decode_bm_wr : decode ⟨0x00000050#32, 1, 0xA7, 0⟩ = .ok (.bmWr 1 0xA7) := by decide
theorem test_decode_bm_rd : decode ⟨0x00000051#32, 0x100, 0, 0⟩ = .ok (.bmRd 0x100) := by decide
theorem test_decode_wm_wr : decode ⟨0x00000052#32, 0xF, 0x98, 0⟩ = .ok (.wmWr 0xF 0x98) := by decide
theorem test_decode_wm_rd : decode ⟨0x00000053#32, 0xE, 0, 0⟩ = .ok (.wmRd 0xE) := by decide

/-- Every word of V7 that decodes as nothing, and the one of V8. -/
theorem test_decode_illegal_words :
    [0x00000000#32, 0xFFFFFFFF#32, 0x00000410#32, 0x00001011#32, 0x00008012#32, 0x00400013#32, 0x00004013#32,
      0x00008020#32, 0x00000120#32, 0x00000130#32, 0x80000031#32, 0x00000034#32, 0x00000044#32, 0x00000054#32,
      0x0000000F#32, 0x00000014#32, 0x00000022#32, 0x00000060#32, 0x000000FF#32, 0x00000150#32,
      0x00400030#32].all (fun c => match decode ⟨c, 0, 0, 0⟩ with | .ok _ => false | .error _ => true) = true := by
  decide

/-- The rejection says why: V7 rows 1, 4 bit 22 and `rs` of `U64.LDN`. -/
theorem test_decode_rejections_named :
    decode ⟨0x00000000#32, 0, 0, 0⟩ = .error .unknownOpcode ∧
    decode ⟨0x00400013#32, 0, 0, 0⟩ = .error .reservedBitSet ∧
    decode ⟨0x00000410#32, 5, 0, 0⟩ = .error .unusedFieldSet := by
  decide

/-- The same words by the numbering of spec/opcode_table.json: bits above `nbits` are no part of the word. -/
theorem test_decode_table_word :
    decodeTableWord 32 0x00200313 = some (.u64Ror 3 64) ∧ decodeTableWord 32 0x00000034 = none ∧
    decodeTableWord 32 (2 ^ 32 * 5 + 0x310) = some (.u64Ldn 3 0) := by
  decide

/-- Encoded words as the spec prints them: P1 packets 6 and 3, V3 row 2. -/
theorem test_encode_words :
    (encode (.u64Ror 0 8)).cmd = 0x00040013#32 ∧ (encode (.u64Add 0 1)).cmd = 0x00000411#32 ∧
    (encode (.cdcS2w .w32 .big 0 5 0)).cmd = 0x00007020#32 := by
  decide

/-! ### Status codes, notation, pseudo-commands -/

/-- 60_exceptions.md R200. -/
theorem test_status_codes :
    [Status.ok, .illegalCommand, .illegalOperand, .rorGranularity, .addressRange].map Status.code =
      [0#4, 1#4, 2#4, 3#4, 4#4] := by
  decide

/-- 30_encoding.md R71. -/
theorem test_assemble_s2w : assemble (.cdcS2w .w32 .big 0 20 0) = "CDC.S2W 32, BE, 0, 20, 0" := by decide +kernel

/-- 30_encoding.md R72, P2 packets 0 and 1. -/
theorem test_pseudo_wrs : pseudoWrs 0 [0x6b, 0xa7] = [.bmWr 0 0x6b, .bmWr 1 0xa7] := by decide

theorem test_pseudo_rdv : pseudoRdv 3 = [.u64Ror 3 64] := by decide

/-! ### Small states -/

/-- Reset with `U[0] = a`, `U[1] = b`. -/
def withU (a b : Nat) : State := (State.reset.writeU 0 (fromNumber a)).writeU 1 (fromNumber b)

/-- Reset with octets in BMEM from `a` on. -/
def withBmem (a : Nat) (octets : List Octet) : State := State.reset.writeBmem a octets

/-- Reset with words in WMEM from `a` on. -/
def withWmem (a : Nat) (words : List Word) : State := State.reset.writeWmem a words

/-- The next state, or reset where there is none. -/
def after : Result → State
  | .next t => t
  | .fault _ => State.reset
  | .refused _ => State.reset

/-- The next state of an outcome, if it has one. -/
def nextOf : Result → Option State
  | .next t => some t
  | .fault _ => none
  | .refused _ => none

/-- States can be compared, outcomes of the host's type cannot. -/
theorem next_of {r : Result} {t : State} (h : nextOf r = some t) : r = .next t := by
  cases r <;> simp_all [nextOf]

/-- The response of the next state. -/
def answer (r : Result) : Option Response := (after r).response

/-! ### FixedWidthInteger (UI64): V1 -/

/-- Row 1, the digits of 1700000000000. -/
theorem test_ldn_digits :
    (after (exec (.u64Ldn 0 1700000000000) State.reset)).u[0] =
      ⟨#[0x00, 0x68, 0xE5, 0xCF, 0x8B, 0x01, 0x00, 0x00], rfl⟩ := by decide

/-- The function drops what is beyond 64 bits: `FromNumber(2^64 + 5)`. -/
theorem test_from_number_drops : val (fromNumber (2 ^ 64 + 5)) = 5 := by decide

/-- Row 8, the carry runs through 7 digits; `U[1]` stays. -/
theorem test_add_carry_runs :
    val (after (exec (.u64Add 0 1) (withU 0x00FFFFFFFFFFFFFF 1))).u[0] = 0x0100000000000000 ∧
    val (after (exec (.u64Add 0 1) (withU 0x00FFFFFFFFFFFFFF 1))).u[1] = 1 := by decide

/-- Row 9, `rd = rs` and a carry-out. -/
theorem test_add_same_register :
    val (after (exec (.u64Add 0 0) (withU 0x8000000000000001 0))).u[0] = 2 ∧
    answer (exec (.u64Add 0 0) (withU 0x8000000000000001 0)) = some ⟨.ok, 1⟩ := by decide

/-- Row 11, the largest product. -/
theorem test_muln_largest :
    val (after (exec (.u64Muln 0 0xFFFFFFFF) (withU 0xFFFFFFFFFFFFFFFF 0))).u[0] = 0xFFFFFFFF00000001 ∧
    answer (exec (.u64Muln 0 0xFFFFFFFF) (withU 0xFFFFFFFFFFFFFFFF 0)) = some ⟨.ok, 0xFFFFFFFE⟩ := by decide

/-- Row 16, a scalar of 33 bits. -/
theorem test_muln_wide_scalar :
    answer (exec (.u64Muln 0 0x100000000) (withU 0x0123456789ABCDEF 0)) = some ⟨.illegalOperand, 0⟩ ∧
    val (after (exec (.u64Muln 0 0x100000000) (withU 0x0123456789ABCDEF 0))).u[0] = 0x0123456789ABCDEF := by
  decide

/-- Row 19, two digits out, the first out the least significant. -/
theorem test_ror_16 :
    val (after (exec (.u64Ror 0 16) (withU 0x0123456789ABCDEF 0))).u[0] = 0xCDEF0123456789AB ∧
    answer (exec (.u64Ror 0 16) (withU 0x0123456789ABCDEF 0)) = some ⟨.ok, 0xCDEF⟩ := by decide

/-- Row 19 with `zero` and `first_out_high`; rows 25 and 24, granularity before reach. -/
theorem test_ror_other_settings_and_faults :
    val (after (exec (.u64Ror 0 16) { withU 0x0123456789ABCDEF 0 with
      params := ⟨4096, 1024, .zero, .firstOutHigh⟩ })).u[0] = 0x00000123456789AB ∧
    answer (exec (.u64Ror 0 16) { withU 0x0123456789ABCDEF 0 with
      params := ⟨4096, 1024, .zero, .firstOutHigh⟩ }) = some ⟨.ok, 0xEFCD⟩ ∧
    answer (exec (.u64Ror 0 76) State.reset) = some ⟨.rorGranularity, 0⟩ ∧
    answer (exec (.u64Ror 0 72) State.reset) = some ⟨.illegalOperand, 0⟩ := by decide

/-! ### Word arithmetic (UI32): V2 -/

theorem test_add32_wraps : add32 0xFFFFFFFF#32 0x00000001#32 = 0x00000000#32 := by decide
theorem test_rotl32_5 : rotl32 0x67452301#32 5 = 0xE8A4602C#32 := by decide
theorem test_md5F : md5F 0xEFCDAB89#32 0x98BADCFE#32 0x10325476#32 = 0x98BADCFE#32 := by decide
theorem test_sha1Function :
    sha1Function 0 0xEFCDAB89#32 0x98BADCFE#32 0x10325476#32 = 0x98BADCFE#32 := by decide

/-! ### Byte/Word Codec: V3 -/

/-- Row 6: 24 bits, big-endian, a last group of two octets. -/
theorem test_s2w_24_be :
    let t := after (exec (.cdcS2w .w24 .big 0 5 0) (withBmem 0 [1, 2, 3, 4, 5]))
    t.wmem.readRange 0 2 = [0x00010203#32, 0x00040500#32] ∧ t.response = some ⟨.ok, 2⟩ := by decide

/-- Row 1: 32 bits, little-endian; and the range that would wrap at `2^64`. -/
theorem test_s2w_32_le :
    (after (exec (.cdcS2w .w32 .little 0 5 0) (withBmem 0 [1, 2, 3, 4, 5]))).wmem.readRange 0 2 =
      [0x04030201#32, 0x00000005#32] ∧
    answer (exec (.cdcS2w .w32 .little 0xFFFFFFFFFFFFFFFF 2 0) State.reset) = some ⟨.addressRange, 0⟩ := by decide

/-- Row 5: 24 bits of a wider cell, big-endian. -/
theorem test_w2s_24_be :
    let t := after (exec (.cdcW2s .w24 .big 2 1 16) (withWmem 2 [0x12345678#32]))
    t.bmem.readRange 15 5 = [0x00, 0x34, 0x56, 0x78, 0x00] ∧ t.response = some ⟨.ok, 3⟩ := by decide

/-- Row 4: 16 bits, little-endian; and a count whose octets would wrap at `2^64`. -/
theorem test_w2s_16_le :
    (after (exec (.cdcW2s .w16 .little 2 1 16) (withWmem 2 [0x12345678#32]))).bmem.readRange 16 2 = [0x78, 0x56] ∧
    answer (exec (.cdcW2s .w32 .big 0 0x4000000000000000 0) State.reset) = some ⟨.addressRange, 0⟩ := by decide

/-! ### MD5: V4, P4 -/

theorem test_md5_init :
    (after (exec .md5Init State.reset)).ma = ⟨0x67452301, 0xEFCDAB89, 0x98BADCFE, 0x10325476⟩ := by decide

/-- Row 1 of the compression table: `MD5_IV` and sixteen zero words. -/
theorem test_md5_block_zeros :
    (after (exec (.md5Block 1008) { State.reset with ma := md5Iv })).ma =
      ⟨0x031F1DAC, 0x6EA58ED0, 0x1FAB67B7, 0x74317791⟩ := by decide +kernel

/-- Row 3: word order and padding word in place. -/
theorem test_md5_block_words :
    (after (exec (.md5Block 0) { withWmem 0 (List.replicate 14 0x61616161#32 ++ [0x80#32]) with ma := md5Iv })).ma =
      ⟨0x3BF7335F, 0x122CDB68, 0xB14E7896, 0xF4455E95⟩ := by decide +kernel

/-- P4 packet 78. -/
theorem test_md5_out :
    (after (exec (.md5Out 256)
      { State.reset with ma := ⟨0xC78A0C3B, 0xB028F803, 0x70196C4C, 0x1872D106⟩ })).bmem.readRange 256 16 =
      [0x3b, 0x0c, 0x8a, 0xc7, 0x03, 0xf8, 0x28, 0xb0, 0x4c, 0x6c, 0x19, 0x70, 0x06, 0xd1, 0x72, 0x18] := by
  decide

/-- Overlap: the digest of the old octets is written over them. -/
theorem test_md5_digest_overlap :
    let t := after (exec (.md5Digest 0 3 0) (withBmem 0 [0x61, 0x62, 0x63]))
    t.bmem.readRange 0 17 =
      [0x90, 0x01, 0x50, 0x98, 0x3c, 0xd2, 0x4f, 0xb0, 0xd6, 0x96, 0x3f, 0x7d, 0x28, 0xe1, 0x7f, 0x72, 0x00] ∧
    t.ma = ⟨0x98500190, 0xB04FD23C, 0x7D3F96D6, 0x727FE128⟩ ∧ t.response = some ⟨.ok, 1⟩ := by decide +kernel

/-- Two blocks: 56 octets `0x61`. -/
theorem test_md5_digest_two_blocks :
    let t := after (exec (.md5Digest 0 56 512) (withBmem 0 (List.replicate 56 0x61)))
    t.ma = ⟨0xC78A0C3B, 0xB028F803, 0x70196C4C, 0x1872D106⟩ ∧ t.response = some ⟨.ok, 2⟩ := by decide +kernel

/-! ### SHA-1: V5, P3 -/

theorem test_sha1_init :
    (after (exec .sha1Init State.reset)).sh =
      ⟨0x67452301, 0xEFCDAB89, 0x98BADCFE, 0x10325476, 0xC3D2E1F0⟩ := by decide

/-- Row 1 of the compression table: `SHA1_IV` and sixteen zero words. -/
theorem test_sha1_block_zeros :
    (after (exec (.sha1Block 1008) { State.reset with sh := sha1Iv })).sh =
      ⟨0x92B404E5, 0x56588CED, 0x6C1ACD4E, 0xBF053F68, 0x09F73A93⟩ := by decide +kernel

/-- P3 packet 33. -/
theorem test_sha1_block_words :
    (after (exec (.sha1Block 0) { withWmem 0 ([0x6BA7B811, 0x9DAD11D1, 0x80B400C0, 0x4FD430C8, 0x666F6F80] ++
      List.replicate 10 0#32 ++ [0x98]) with sh := sha1Iv })).sh =
      ⟨0x7DA78284, 0x2F146E7F, 0xD5E1BAAA, 0x9027C26F, 0x1CAD94D9⟩ := by decide +kernel

/-- P3 packet 34: all 20 octets. -/
theorem test_sha1_out :
    (after (exec (.sha1Out 256)
      { State.reset with sh := ⟨0x7DA78284, 0x2F146E7F, 0xD5E1BAAA, 0x9027C26F, 0x1CAD94D9⟩ })).bmem.readRange 256 20 =
      [0x7d, 0xa7, 0x82, 0x84, 0x2f, 0x14, 0x6e, 0x7f, 0xd5, 0xe1, 0xba, 0xaa, 0x90, 0x27, 0xc2, 0x6f,
        0x1c, 0xad, 0x94, 0xd9] := by decide

/-- Overlap: `SHA1.DIGEST 0, 3, 1` leaves `BMEM[0]`. -/
theorem test_sha1_digest_overlap :
    let t := after (exec (.sha1Digest 0 3 1) (withBmem 0 [0x61, 0x62, 0x63]))
    t.bmem.readRange 0 21 =
      [0x61, 0xa9, 0x99, 0x3e, 0x36, 0x47, 0x06, 0x81, 0x6a, 0xba, 0x3e, 0x25, 0x71, 0x78, 0x50, 0xc2, 0x6c,
        0x9c, 0xd0, 0xd8, 0x9d] ∧ t.response = some ⟨.ok, 1⟩ := by decide +kernel

/-- Two blocks: 56 octets `0x61`, the digest's first word. -/
theorem test_sha1_digest_two_blocks :
    let t := after (exec (.sha1Digest 0 56 512) (withBmem 0 (List.replicate 56 0x61)))
    t.sh.a = 0xC2DB330F ∧ t.response = some ⟨.ok, 2⟩ := by decide +kernel

/-! ### Buffer access: V6 -/

/-- The last octet; the over-wide octet before the address. -/
theorem test_bm_wr :
    (after (exec (.bmWr 4095 0xFF) State.reset)).bmem.read 4095 = 0xFF ∧
    answer (exec (.bmWr 4096 0x100) State.reset) = some ⟨.illegalOperand, 0⟩ ∧
    answer (exec (.bmWr 4096 0) State.reset) = some ⟨.addressRange, 0⟩ := by decide

theorem test_bm_rd :
    answer (exec (.bmRd 4095) (withBmem 4095 [0xFF])) = some ⟨.ok, 0xFF⟩ ∧
    answer (exec (.bmRd 4096) State.reset) = some ⟨.addressRange, 0⟩ := by decide

theorem test_wm_wr :
    (after (exec (.wmWr 1023 0xFFFFFFFF) State.reset)).wmem.read 1023 = 0xFFFFFFFF ∧
    answer (exec (.wmWr 0 0x100000000) State.reset) = some ⟨.illegalOperand, 0⟩ ∧
    answer (exec (.wmWr 1024 0) State.reset) = some ⟨.addressRange, 0⟩ := by decide

theorem test_wm_rd :
    answer (exec (.wmRd 1023) (withWmem 1023 [0xFFFFFFFF])) = some ⟨.ok, 0xFFFFFFFF⟩ ∧
    answer (exec (.wmRd 1024) State.reset) = some ⟨.addressRange, 0⟩ := by decide

/-! ### Steps -/

/-- V8 row 5: the operand of an illegal packet is not looked at. -/
theorem test_step_illegal_command :
    step { State.reset with inbox := [.packet ⟨0x00000410#32, 5, 0, 0⟩] } =
      .next { State.reset with response := some ⟨.illegalCommand, 0⟩ } := next_of (by decide)

/-- The host's word runs as the first instruction after reset. -/
theorem test_step_first_word :
    step (State.reset.withFetchWord 32 0x00000030) =
      .next { State.reset with ma := ⟨0x67452301, 0xEFCDAB89, 0x98BADCFE, 0x10325476⟩,
                               response := some ⟨.ok, 0⟩ } := next_of (by decide)

/-! ### Witnesses: the hypotheses of every statement are met

`reset_inv` and the states above serve all of them. A clause on a range has a witness at its last legal value and
one at the first illegal value, so no value falls under two clauses. -/

theorem reset_inv : Inv State.reset :=
  ⟨by decide, by decide, by decide, by decide, by decide, trivial⟩

/-- Reset with one packet presented. -/
def withPacket (c : BitVec 32) (a b d : Operand) : State :=
  { State.reset with inbox := [.packet ⟨c, a, b, d⟩] }

theorem witness_StepKeepsInvariant :
    Inv (withPacket 0x00000050 4095 0xFF 0) ∧
    step (withPacket 0x00000050 4095 0xFF 0) =
      .next { State.reset with bmem := [(4095, 0xFF)], response := some ⟨.ok, 0⟩ } :=
  ⟨⟨by decide, by decide, by decide, by decide, by decide, trivial⟩, next_of (by decide)⟩

theorem witness_StepRunsDecodedCommand :
    (withPacket 0x00000310 7 0 0).inbox = .packet ⟨0x00000310, 7, 0, 0⟩ :: [] ∧
    decode ⟨0x00000310, 7, 0, 0⟩ = .ok (.u64Ldn 3 7) := by decide

theorem witness_EveryPacketIsAnswered :
    (withPacket 0 0 0 0).inbox = .packet ⟨0, 0, 0, 0⟩ :: [] := by decide

theorem witness_FaultResponseChangesNothing :
    (withPacket 0x00020013 0 0 0).inbox = .packet ⟨0x00020013, 0, 0, 0⟩ :: [] ∧
    step (withPacket 0x00020013 0 0 0) = .next { State.reset with response := some ⟨.rorGranularity, 0⟩ } ∧
    Status.rorGranularity ≠ .ok := ⟨by decide, next_of (by decide), by decide⟩

theorem witness_FaultingPacketLeavesNoTrace :
    let s : State := { State.reset with inbox := [.packet ⟨0x00000051, 4096, 0, 0⟩, .packet ⟨0x00000030, 0, 0, 0⟩] }
    s.inbox = .packet ⟨0x00000051, 4096, 0, 0⟩ :: .packet ⟨0x00000030, 0, 0, 0⟩ :: [] ∧
    step s = .next { State.reset with
      inbox := [.packet ⟨0x00000030, 0, 0, 0⟩], response := some ⟨.addressRange, 0⟩ } ∧
    Status.addressRange ≠ .ok := ⟨by decide, next_of (by decide), by decide⟩

theorem witness_ResetEventLoadsItsValues :
    let v : ResetValues := ⟨(withU 1 2).u, md5Iv, sha1Iv, [(0, 5), (4095, 6)], [(1023, 7)]⟩
    let s : State := { State.reset with inbox := [.reset v] }
    s.inbox = .reset v :: [] ∧ v.bmem.wf ∧ v.bmem.inside s.params.bmemBytes ∧ v.wmem.wf ∧
      v.wmem.inside s.params.wmemWords := by decide

theorem witness_OnlyUi64CommandsTouchU :
    usesU (.bmRd 0) = false ∧
    exec (.bmRd 0) (withU 5 6) = .next { withU 5 6 with response := some ⟨.ok, 0⟩ } :=
  ⟨by decide, next_of (by decide)⟩

theorem witness_OnlyDigestCommandsTouchTheirAccumulators :
    usesMa .sha1Init = false ∧ usesSh .md5Init = false ∧
    exec .sha1Init State.reset = .next { State.reset with sh := sha1Iv, response := some ⟨.ok, 0⟩ } ∧
    exec .md5Init State.reset = .next { State.reset with ma := md5Iv, response := some ⟨.ok, 0⟩ } :=
  ⟨by decide, by decide, next_of (by decide), next_of (by decide)⟩

theorem witness_OnlyListedCommandsTouchTheMemories :
    usesBmem (.wmWr 0 1) = false ∧ usesWmem (.bmWr 0 1) = false ∧
    exec (.wmWr 0 1) State.reset = .next { State.reset with wmem := [(0, 1)], response := some ⟨.ok, 0⟩ } ∧
    exec (.bmWr 0 1) State.reset = .next { State.reset with bmem := [(0, 1)], response := some ⟨.ok, 0⟩ } :=
  ⟨by decide, by decide, next_of (by decide), next_of (by decide)⟩

/-- The last clause: two words that show no row's match, each one bit away from a legal one (V7); and two legal
words at the ends of their fields. -/
theorem witness_OpcodeMapSelectsCommands :
    (∀ c ∈ [0x00400013#32, 0x00000410#32], ∀ row ∈ [
        (0xFFFFFCFF#32, 0x10#32), (0xFFFFF0FF#32, 0x11#32), (0xFFFFFCFF#32, 0x12#32), (0xFFC07CFF#32, 0x13#32),
        (0xFFFF8FFF#32, 0x20#32), (0xFFFF8FFF#32, 0x21#32), (0xFFFFFFFF#32, 0x30#32), (0xFFFFFFFF#32, 0x31#32),
        (0xFFFFFFFF#32, 0x32#32), (0xFFFFFFFF#32, 0x33#32), (0xFFFFFFFF#32, 0x40#32), (0xFFFFFFFF#32, 0x41#32),
        (0xFFFFFFFF#32, 0x42#32), (0xFFFFFFFF#32, 0x43#32), (0xFFFFFFFF#32, 0x50#32), (0xFFFFFFFF#32, 0x51#32),
        (0xFFFFFFFF#32, 0x52#32), (0xFFFFFFFF#32, 0x53#32)],
        c &&& row.1 ≠ row.2) ∧
    (withPacket 0x00400013 0 0 0).inbox = .packet ⟨0x00400013, 0, 0, 0⟩ :: [] ∧
    0x00000310#32 &&& 0xFFFFFCFF#32 = 0x10#32 ∧ 0x003F8313#32 &&& 0xFFC07CFF#32 = 0x13#32 := by
  refine ⟨by simp, by decide, by decide, by decide⟩

theorem witness_DecodeOfEncodeIsIdentity :
    (Instr.u64Ror 3 127).wellFormed = true ∧ (Instr.cdcW2s .w32 .big (-1) (-1) (-1)).wellFormed = true := by decide

theorem witness_EncodeOfDecodeRestoresTheWord :
    decode ⟨0x003F8313, 1, 2, 3⟩ = .ok (.u64Ror 3 127) := by decide

theorem witness_UnusedOperandsHaveNoEffect :
    0x003F8313#32 &&& 0xFF#32 ∈ [0x11#32, 0x13#32, 0x30#32, 0x40#32] ∧
    0x00000051#32 &&& 0xFF#32 ∈
      [0x10#32, 0x12#32, 0x31#32, 0x32#32, 0x41#32, 0x42#32, 0x51#32, 0x53#32] ∧
    0x00000050#32 &&& 0xFF#32 ∈ [0x50#32, 0x52#32] := by decide

/-- The bound on the running carries at `w = 32`, the width `U64.MULN` allows. -/
theorem witness_Ui64MulNIsExactForEveryScalar : 0xFFFFFFFF < 2 ^ 32 ∧ 7 < 8 ∧ 8 ≤ 8 := by decide

theorem witness_MulnScalesOrRefusesWideScalar :
    (0xFFFFFFFF#64).toNat < 2 ^ 32 ∧ 2 ^ 32 ≤ (0x100000000#64).toNat := by decide

/-- All four settings; amounts 0 and 64, 1 and 127, 72 and 120. -/
theorem witness_RorRotatesWholeDigitsOrRefuses :
    (64 % 8 = 0 ∧ 64 ≤ 64) ∧ (127 % 8 ≠ 0) ∧ (72 % 8 = 0 ∧ 64 < 72) ∧
    State.reset.params.rorFill = .rotate ∧ State.reset.params.rorOrder = .firstOutLow ∧
    ({ State.reset with params := ⟨4096, 1024, .zero, .firstOutHigh⟩ } : State).params.rorFill = .zero ∧
    ({ State.reset with params := ⟨4096, 1024, .zero, .firstOutHigh⟩ } : State).params.rorOrder =
      .firstOutHigh := by decide

theorem witness_RdvReadsTheRegister : (withU 5 6).params.RorNormative := by decide

theorem witness_EightRotationsReturnTheDigits :
    7 < 8 ∧ State.reset.params.rorFill = .rotate ∧
    ({ State.reset with params := ⟨4096, 1024, .zero, .firstOutLow⟩ } : State).params.rorFill = .zero := by decide

theorem witness_Rotl32RotatesLeft : 31 < 32 ∧ 1 ≤ 31 ∧ 0 < 32 := by decide

theorem witness_StringToWordsPacksOctets : 1 < (stringToWords .w32 .big [1, 2, 3, 4, 5]).length := by decide

theorem witness_WordsToStringUnpacksWords :
    1 < [0x67452301#32, 0xEFCDAB89#32].length ∧ 3 < octetsPerWord .w32 := by decide

theorem witness_CodecInverseLaws :
    (∀ x ∈ [0x00FFFFFF#32], x.toNat < 2 ^ bitsOfWidth .w24) ∧ ByteOrder.big ≠ .little := by
  simp [bitsOfWidth, octetsPerWord]

/-- V3: the last four octets to the last cell; the source one octet too long; the empty destination one too far. -/
theorem witness_S2wPacksOrRefusesRange :
    State.reset.wmem.wf ∧
    (4092#64).toNat + (4#64).toNat ≤ State.reset.params.bmemBytes ∧
    (1023#64).toNat + ((4#64).toNat + (octetsPerWord .w32 - 1)) / octetsPerWord .w32 ≤
      State.reset.params.wmemWords ∧
    State.reset.params.bmemBytes < (4092#64).toNat + (5#64).toNat ∧
    State.reset.params.wmemWords < (1025#64).toNat + ((0#64).toNat + (octetsPerWord .w32 - 1)) / octetsPerWord .w32 :=
  by decide

/-- V3: the last cell to the last four octets; the source one cell, the destination one octet too far. -/
theorem witness_W2sUnpacksOrRefusesRange :
    State.reset.bmem.wf ∧ State.reset.params.Ok ∧
    (1023#64).toNat + (1#64).toNat ≤ State.reset.params.wmemWords ∧
    (4092#64).toNat + (1#64).toNat * octetsPerWord .w32 ≤ State.reset.params.bmemBytes ∧
    State.reset.params.wmemWords < (1023#64).toNat + (2#64).toNat ∧
    State.reset.params.bmemBytes < (4093#64).toNat + (1#64).toNat * octetsPerWord .w32 := by decide

/-- V4: `MD5.BLOCK 1008` and `1009`. -/
theorem witness_Md5BlockCompressesCells :
    (1008#64).toNat + 16 ≤ State.reset.params.wmemWords ∧
    State.reset.params.wmemWords < (1009#64).toNat + 16 := by decide

/-- V4: `MD5.OUT 4080` and `4081`. -/
theorem witness_Md5OutWritesTheAccumulators :
    State.reset.bmem.wf ∧ (4080#64).toNat + 16 ≤ State.reset.params.bmemBytes ∧
    State.reset.params.bmemBytes < (4081#64).toNat + 16 := by decide

/-- V4: `MD5.DIGEST 4096, 0, 0`; `4097, 0, 0`; and a destination one octet too far. -/
theorem witness_Md5DigestCommandDigestsTheSource :
    State.reset.bmem.wf ∧
    (4096#64).toNat + (0#64).toNat ≤ State.reset.params.bmemBytes ∧
    (4080#64).toNat + 16 ≤ State.reset.params.bmemBytes ∧
    State.reset.params.bmemBytes < (4097#64).toNat + (0#64).toNat ∧
    State.reset.params.bmemBytes < (4081#64).toNat + 16 := by decide

/-- The padded empty message in the last 16 cells. -/
theorem witness_Md5BlockPathEqualsDigest :
    Inv (withWmem 1008 [0x80#32]) ∧
    (4096#64).toNat + (0#64).toNat ≤ (withWmem 1008 [0x80#32]).params.bmemBytes ∧
    (4080#64).toNat + 16 ≤ (withWmem 1008 [0x80#32]).params.bmemBytes ∧
    ([] : List Octet).length = (0#64).toNat ∧
    (∀ j : Nat, j < (0#64).toNat →
      ([] : List Octet)[j]? = some ((withWmem 1008 [0x80#32]).bmem.read ((4096#64).toNat + j))) ∧
    (1008#64).toNat + 16 * (((0#64).toNat + 8) / 64 + 1) ≤ (withWmem 1008 [0x80#32]).params.wmemWords ∧
    (∀ n : Nat, n < 16 * (((0#64).toNat + 8) / 64 + 1) →
      (stringToWords .w32 .little (md5Pad []))[n]? =
        some ((withWmem 1008 [0x80#32]).wmem.read ((1008#64).toNat + n))) :=
  ⟨⟨by decide, by decide, by decide, by decide, by decide, trivial⟩, by decide, by decide, by decide, by decide,
    by decide, by decide⟩

theorem witness_Sha1ScheduleExtendsTheBlock : (List.replicate 16 0#32).length = 16 := by decide

/-- V5: `SHA1.BLOCK 1008` and `1009`. -/
theorem witness_Sha1BlockCompressesCells :
    (1008#64).toNat + 16 ≤ State.reset.params.wmemWords ∧
    State.reset.params.wmemWords < (1009#64).toNat + 16 := by decide

/-- V5: `SHA1.OUT 4076` and `4077`. -/
theorem witness_Sha1OutWritesTheAccumulators :
    State.reset.bmem.wf ∧ (4076#64).toNat + 20 ≤ State.reset.params.bmemBytes ∧
    State.reset.params.bmemBytes < (4077#64).toNat + 20 := by decide

/-- V5: `SHA1.DIGEST 0, 0, 4077` is one octet too far; 4076 is not; and a source one octet too far. -/
theorem witness_Sha1DigestCommandDigestsTheSource :
    State.reset.bmem.wf ∧
    (4096#64).toNat + (0#64).toNat ≤ State.reset.params.bmemBytes ∧
    (4076#64).toNat + 20 ≤ State.reset.params.bmemBytes ∧
    State.reset.params.bmemBytes < (4096#64).toNat + (1#64).toNat ∧
    State.reset.params.bmemBytes < (4077#64).toNat + 20 := by decide

/-- The padded empty message in the last 16 cells. -/
theorem witness_Sha1BlockPathEqualsDigest :
    Inv (withWmem 1008 [0x80000000#32]) ∧
    (4096#64).toNat + (0#64).toNat ≤ (withWmem 1008 [0x80000000#32]).params.bmemBytes ∧
    (4076#64).toNat + 20 ≤ (withWmem 1008 [0x80000000#32]).params.bmemBytes ∧
    ([] : List Octet).length = (0#64).toNat ∧
    (∀ j : Nat, j < (0#64).toNat →
      ([] : List Octet)[j]? = some ((withWmem 1008 [0x80000000#32]).bmem.read ((4096#64).toNat + j))) ∧
    (1008#64).toNat + 16 * (((0#64).toNat + 8) / 64 + 1) ≤ (withWmem 1008 [0x80000000#32]).params.wmemWords ∧
    (∀ n : Nat, n < 16 * (((0#64).toNat + 8) / 64 + 1) →
      (stringToWords .w32 .big (sha1Pad []))[n]? =
        some ((withWmem 1008 [0x80000000#32]).wmem.read ((1008#64).toNat + n))) :=
  ⟨⟨by decide, by decide, by decide, by decide, by decide, trivial⟩, by decide, by decide, by decide, by decide,
    by decide, by decide⟩

/-- "abc" at 0 in one state and at 100 in another: the two digest commands complete in both (V4, V5 overlap rows). -/
theorem witness_DigestDependsOnItsSourceAlone :
    let s := withBmem 0 [0x61, 0x62, 0x63]
    let s' := withBmem 100 [0x61, 0x62, 0x63]
    s.bmem.wf ∧ s'.bmem.wf ∧ (∀ j : Nat, j < (3#64).toNat → s.bmem.read (0 + j) = s'.bmem.read (100 + j)) ∧
    answer (exec (.md5Digest 0 3 256) s) = some ⟨.ok, 1⟩ ∧ answer (exec (.md5Digest 100 3 0) s') = some ⟨.ok, 1⟩ ∧
    answer (exec (.sha1Digest 0 3 256) s) = some ⟨.ok, 1⟩ ∧
    answer (exec (.sha1Digest 100 3 0) s') = some ⟨.ok, 1⟩ := by decide +kernel

/-- V6: octets 255 and 256, addresses 4095 and 4096. -/
theorem witness_BmWrWritesOneOctet :
    State.reset.bmem.wf ∧ (255#64).toNat < 256 ∧ (4095#64).toNat < State.reset.params.bmemBytes ∧
    256 ≤ (256#64).toNat ∧ State.reset.params.bmemBytes ≤ (4096#64).toNat := by decide

theorem witness_BmRdReturnsTheOctet :
    (4095#64).toNat < State.reset.params.bmemBytes ∧ State.reset.params.bmemBytes ≤ (4096#64).toNat := by decide

/-- V6: words `2^32 - 1` and `2^32`, indices 1023 and 1024. -/
theorem witness_WmWrWritesOneCell :
    State.reset.wmem.wf ∧ (0xFFFFFFFF#64).toNat < 2 ^ 32 ∧ (1023#64).toNat < State.reset.params.wmemWords ∧
    2 ^ 32 ≤ (0x100000000#64).toNat ∧ State.reset.params.wmemWords ≤ (1024#64).toNat := by decide

theorem witness_WmRdReturnsTheCell :
    (1023#64).toNat < State.reset.params.wmemWords ∧ State.reset.params.wmemWords ≤ (1024#64).toNat := by decide

theorem witness_WrsWritesTheString :
    Inv State.reset ∧ [0x6b#8, 0xa7#8] ≠ [] ∧
    4094 + [0x6b#8, 0xa7#8].length ≤ State.reset.params.bmemBytes := ⟨reset_inv, by decide, by decide⟩

/-- The clause on faults: a command of every row that can raise one, raising it. -/
theorem witness_CommandsRaiseOnlyTheirFaults :
    answer (exec (.u64Ror 0 4) State.reset) = some ⟨.rorGranularity, 0⟩ ∧
    answer (exec (.u64Muln 0 0x100000000) State.reset) = some ⟨.illegalOperand, 0⟩ ∧
    answer (exec (.md5Out 4081) State.reset) = some ⟨.addressRange, 0⟩ := by decide

/-- The bounded clauses on digits (places 0 to 7) and steps (0 to 63, 0 to 79), at their last values. -/
theorem witness_FromNumberDropsBeyond64Bits : 7 < 8 := by decide
theorem witness_Ui64AddCarriesThroughAllDigits : 7 < 8 := by decide
theorem witness_Md5CompressIsSixtyFourSteps : 63 < 64 := by decide
theorem witness_Sha1CompressIsEightySteps : 79 < 80 := by decide

/-- The clauses on places of a padded message, for one octet: 54 zero octets (V4). -/
theorem witness_Md5PadLaysOutTheMessage : 0 < [0x61#8].length ∧ 53 < padZeros [0x61#8].length ∧ 7 < 8 := by decide
theorem witness_Sha1PadLaysOutTheMessage : 0 < [0x61#8].length ∧ 53 < padZeros [0x61#8].length ∧ 7 < 8 := by decide

/-- The clauses on blocks, for the 56 octets that need two (V4, V5). -/
theorem witness_Md5DigestChainsTheBlocks :
    1 < ((List.replicate 56 0x61#8).length + 8) / 64 + 1 ∧ 15 < 16 := by decide
theorem witness_Sha1DigestChainsTheBlocks :
    1 < ((List.replicate 56 0x61#8).length + 8) / 64 + 1 ∧ 19 < 20 := by decide

end Sys2Proof.Tests
end

/-! The opcode map (spec/30_encoding.md R63, R64): a command word selects a row exactly if the packet decodes to
what that row builds. -/

namespace Sys2Proof

open Machine

/-! ### What the rows build -/

/-- Every row builds a command of its own: no two rows answer the same instruction. -/
theorem opcodeRows_map_build_nodup (p : Packet) : (opcodeRows.map (·.build p)).Nodup := by
  simp [opcodeRows, opcodeRowsUi64, opcodeRowsCodec, opcodeRowsMd5, opcodeRowsSha1, opcodeRowsBuffer]

/-- R63 for one row of the map. -/
theorem masked_eq_pattern_iff_decode {r : OpcodeRow} (hr : r ∈ opcodeRows) (p : Packet) :
    p.cmd &&& r.mask = r.pattern ↔ decode p = .ok (r.build p) := by
  rw [← beq_iff_eq, ← OpcodeRow.selects]
  constructor
  · exact decode_of_selects p r hr
  · intro hd
    obtain ⟨q, hq, hs, hb⟩ := (decode_ok_iff_selects p _).mp hd
    rwa [List.inj_on_of_nodup_map (opcodeRows_map_build_nodup p) hr hq hb]

/-! ### The fields as parts of the number `CMD` (R62) -/

/-- `rd = CMD[9:8]`. -/
theorem val_eq_bits_iff_fieldRd (rd : Reg) (c : BitVec 32) : rd.val = c.toNat / 2 ^ 8 % 4 ↔ rd = fieldRd c := by
  simp [Fin.ext_iff, fieldRd, Nat.shiftRight_eq_div_pow]

/-- `rs = CMD[11:10]`. -/
theorem val_eq_bits_iff_fieldRs (rs : Reg) (c : BitVec 32) : rs.val = c.toNat / 2 ^ 10 % 4 ↔ rs = fieldRs c := by
  simp [Fin.ext_iff, fieldRs, Nat.shiftRight_eq_div_pow]

/-- `imm7 = CMD[21:15]`. -/
theorem fieldImm7_eq_bits (c : BitVec 32) : fieldImm7 c = c.toNat / 2 ^ 15 % 128 := by
  simp [fieldImm7, Nat.shiftRight_eq_div_pow]

theorem octetsPerWord_eq_iff (w : Width) (z : BitVec 2) : octetsPerWord w = z.toNat + 1 ↔ w = widthOfCode z := by
  revert z
  cases w <;> decide

theorem eq_big_iff_bit (o : ByteOrder) (b : BitVec 1) : (o = .big ↔ b.toNat = 1) ↔ o = orderOfBit b := by
  revert b
  cases o <;> decide

/-- `wsz = CMD[13:12]`, a width of `wsz + 1` octets. -/
theorem octetsPerWord_eq_bits_iff_fieldWsz (w : Width) (c : BitVec 32) :
    octetsPerWord w = c.toNat / 2 ^ 12 % 4 + 1 ↔ w = widthOfCode (fieldWsz c) := by
  simp [← octetsPerWord_eq_iff, fieldWsz, Nat.shiftRight_eq_div_pow]

/-- `be = CMD[14]`. -/
theorem eq_big_iff_fieldBe (o : ByteOrder) (c : BitVec 32) :
    (o = .big ↔ c.toNat / 2 ^ 14 % 2 = 1) ↔ o = orderOfBit (fieldBe c) := by
  simp [← eq_big_iff_bit, fieldBe, Nat.shiftRight_eq_div_pow]

/-! ### The words no row selects (R67) -/

/-- The map as pairs of mask and match, the way R64 prints it. -/
def opcodeTable : List (BitVec 32 × BitVec 32) := opcodeRows.map fun r => (r.mask, r.pattern)

theorem decode_ne_ok_of_no_row {p : Packet} (h : ∀ row ∈ opcodeTable, p.cmd &&& row.1 ≠ row.2) (i : Instr) :
    decode p ≠ .ok i := by
  intro hd
  obtain ⟨r, hr, hs, -⟩ := (decode_ok_iff_selects p i).mp hd
  exact h (r.mask, r.pattern) (List.mem_map_of_mem hr) (eq_of_beq hs)

/-- A packet that is no command is taken and answered `IllegalCommand`, and nothing else changes (R202). -/
theorem step_of_decode_ne_ok {p : Packet} (h : ∀ i, decode p ≠ .ok i) (s : State) (rest : List HostEvent)
    (hs : s.inbox = .packet p :: rest) :
    step s = .next { s with inbox := rest, response := some ⟨.illegalCommand, 0#64⟩ } := by
  cases hd : decode p with
  | ok i => exact absurd hd (h i)
  | error e => simp only [step, hs, runPacket, hd, raise_eq, State.respond_eq]

/-- Settles O13: every row by `masked_eq_pattern_iff_decode`, the bits of `CMD` read as the row's fields; the last
clause because the table it writes out is `opcodeTable`. -/
theorem opcodeMapSelectsCommands : Obligations.OpcodeMapSelectsCommands := by
  intro p
  have hrows : ∀ r ∈ opcodeRows, p.cmd &&& r.mask = r.pattern ↔ decode p = .ok (r.build p) :=
    fun r hr => masked_eq_pattern_iff_decode hr p
  have hnone : (∀ row ∈ opcodeTable, p.cmd &&& row.1 ≠ row.2) → (∀ i, decode p ≠ .ok i) ∧
      ∀ (s : State) (rest : List HostEvent), s.inbox = .packet p :: rest →
        step s = .next { s with inbox := rest, response := some ⟨.illegalCommand, 0#64⟩ } :=
    fun h => ⟨decode_ne_ok_of_no_row h, step_of_decode_ne_ok (decode_ne_ok_of_no_row h)⟩
  simp only [opcodeRows, opcodeRowsUi64, opcodeRowsCodec, opcodeRowsMd5, opcodeRowsSha1, opcodeRowsBuffer,
    List.cons_append, List.nil_append, List.forall_mem_cons] at hrows
  obtain ⟨ldn, add, muln, ror, s2w, w2s, md5Init, md5Block, md5Out, md5Digest, sha1Init, sha1Block, sha1Out,
    sha1Digest, bmWr, bmRd, wmWr, wmRd, -⟩ := hrows
  simp only [val_eq_bits_iff_fieldRd, val_eq_bits_iff_fieldRs, ← fieldImm7_eq_bits,
    octetsPerWord_eq_bits_iff_fieldWsz, eq_big_iff_fieldBe, exists_and_left, exists_eq_left]
  exact ⟨ldn, add, muln, ror, s2w, w2s, md5Init, md5Block, md5Out, md5Digest, sha1Init, sha1Block, sha1Out,
    sha1Digest, bmWr, bmRd, wmWr, wmRd, hnone⟩

end Sys2Proof

/-! UI64 arithmetic (spec/40_ui64.md R80, R82, R84). The three operations keep one balance at every place: the
digit left there and 256 times the carry out make what is added there and the carry in. -/

namespace Sys2Proof

open Machine

/-! ### The balance summed over the places -/

theorem digitSum_eq_sum (x : Ui64) (k : Nat) : digitSum x k = ∑ i ∈ Finset.range k, digit x i * 256 ^ i := by
  induction k with
  | zero => rfl
  | succ k ih => rw [digitSum_succ, Finset.sum_range_succ, ih]

/-- Where `column i` is added at place `i` and `carry i` is the carry into it, no part of the sum is lost below
place `k`: the carries between the places cancel. -/
theorem digitSum_add_carry {z : Ui64} {column carry : Nat → Nat}
    (hplace : ∀ i < 8, digit z i + carry (i + 1) * 256 = column i + carry i) {k : Nat} (hk : k ≤ 8) :
    digitSum z k + carry k * 256 ^ k = carry 0 + ∑ i ∈ Finset.range k, column i * 256 ^ i := by
  induction k with
  | zero => simp
  | succ k ih =>
    calc digitSum z (k + 1) + carry (k + 1) * 256 ^ (k + 1)
        = digitSum z k + (digit z k + carry (k + 1) * 256) * 256 ^ k := by rw [digitSum_succ]; ring
      _ = digitSum z k + carry k * 256 ^ k + column k * 256 ^ k := by rw [hplace k hk]; ring
      _ = carry 0 + ∑ i ∈ Finset.range (k + 1), column i * 256 ^ i := by
        rw [ih (Nat.le_of_succ_le hk), Finset.sum_range_succ, add_assoc]

/-- `digitSum_add_carry` over all eight places. -/
theorem val_add_carryOut {z : Ui64} {column carry : Nat → Nat}
    (hplace : ∀ i < 8, digit z i + carry (i + 1) * 256 = column i + carry i) :
    val z + carry 8 * 2 ^ 64 = carry 0 + ∑ i ∈ Finset.range 8, column i * 256 ^ i :=
  digitSum_add_carry hplace le_rfl

/-- A register and what is carried out of it: the register holds the total modulo `2^64`. -/
theorem val_eq_mod {z : Ui64} {c total : Nat} (h : val z + c * 2 ^ 64 = total) : val z = total % 2 ^ 64 := by
  rw [← h, Nat.add_mul_mod_self_right, Nat.mod_eq_of_lt (val_lt z)]

/-! ### `FromNumber` (R80) -/

theorem digit_fromNumber (n : Nat) {i : Nat} (hi : i < 8) : digit (fromNumber n) i = n / 256 ^ i % 256 := by
  rw [fromNumber, digit_ofFn _ i hi, BitVec.toNat_ofNat]

/-- R80 as repeated floor-division: nothing is added, and the carry into place `i` is what is left of `n`. -/
theorem val_fromNumber (n : Nat) : val (fromNumber n) = n % 2 ^ 64 := by
  have hplace : ∀ i < 8, digit (fromNumber n) i + n / 256 ^ (i + 1) * 256 = 0 + n / 256 ^ i := fun i hi => by
    rw [digit_fromNumber n hi, pow_succ, ← Nat.div_div_eq_div_mul, zero_add, Nat.mod_add_div']
  exact val_eq_mod (by simpa using val_add_carryOut (carry := fun i => n / 256 ^ i) hplace)

/-- Settles O19. -/
theorem fromNumberDropsBeyond64Bits : Obligations.FromNumberDropsBeyond64Bits :=
  fun n => ⟨fun _ hi => digit_fromNumber n hi, val_fromNumber n⟩

/-! ### `Ui64Add` (R82) -/

theorem digit_ui64Add (x y : Ui64) {i : Nat} (hi : i < 8) :
    digit (ui64Add x y).1 i = (digit x i + digit y i + addCarry x y i) % 256 := by
  rw [ui64Add, digit_ofFn _ i hi, BitVec.toNat_ofNat]

theorem addCarry_le_one (x y : Ui64) (i : Nat) : addCarry x y i ≤ 1 := by
  induction i with
  | zero => simp
  | succ i ih =>
    have := digit_lt x i
    have := digit_lt y i
    rw [addCarry_succ]
    omega

theorem val_ui64Add_add_carryOut (x y : Ui64) :
    val (ui64Add x y).1 + (ui64Add x y).2 * 2 ^ 64 = val x + val y := by
  have hplace : ∀ i < 8, digit (ui64Add x y).1 i + addCarry x y (i + 1) * 256 =
      digit x i + digit y i + addCarry x y i := fun i hi => by
    rw [digit_ui64Add x y hi, addCarry_succ, Nat.mod_add_div']
  calc val (ui64Add x y).1 + addCarry x y 8 * 2 ^ 64
      = ∑ i ∈ Finset.range 8, (digit x i + digit y i) * 256 ^ i := by
        rw [val_add_carryOut hplace, addCarry_zero, zero_add]
    _ = val x + val y := by simp only [val, digitSum_eq_sum, add_mul, Finset.sum_add_distrib]

/-- Settles O20: the carries are `addCarry`. -/
theorem ui64AddCarriesThroughAllDigits : Obligations.Ui64AddCarriesThroughAllDigits := fun x y =>
  have hexact := val_ui64Add_add_carryOut x y
  ⟨addCarry x y, addCarry_zero x y, fun i hi => ⟨digit_ui64Add x y hi, addCarry_succ x y i⟩, rfl,
    addCarry_le_one x y 8, val_eq_mod hexact, hexact.symm⟩

/-! ### `Ui64MulN` (R84) -/

theorem digit_ui64MulN (x : Ui64) (n : Nat) {i : Nat} (hi : i < 8) :
    digit (ui64MulN x n).1 i = (digit x i * n + mulCarry x n i) % 256 := by
  rw [ui64MulN, digit_ofFn _ i hi, BitVec.toNat_ofNat]

/-- No running carry exceeds the scalar, for `(255 * n + n) / 256 = n`. -/
theorem mulCarry_le (x : Ui64) (n i : Nat) : mulCarry x n i ≤ n := by
  induction i with
  | zero => simp
  | succ i ih =>
    have : digit x i * n ≤ 255 * n := Nat.mul_le_mul_right n (Nat.le_of_lt_succ (digit_lt x i))
    rw [mulCarry_succ]
    omega

theorem val_ui64MulN_add_carryOut (x : Ui64) (n : Nat) :
    val (ui64MulN x n).1 + (ui64MulN x n).2 * 2 ^ 64 = val x * n := by
  have hplace : ∀ i < 8, digit (ui64MulN x n).1 i + mulCarry x n (i + 1) * 256 =
      digit x i * n + mulCarry x n i := fun i hi => by
    rw [digit_ui64MulN x n hi, mulCarry_succ, Nat.mod_add_div']
  calc val (ui64MulN x n).1 + mulCarry x n 8 * 2 ^ 64
      = ∑ i ∈ Finset.range 8, digit x i * n * 256 ^ i := by
        rw [val_add_carryOut hplace, mulCarry_zero, zero_add]
    _ = val x * n := by simp only [val, digitSum_eq_sum, Finset.sum_mul, mul_right_comm]

/-- Settles O21: the carries are `mulCarry`. -/
theorem ui64MulNIsExactForEveryScalar : Obligations.Ui64MulNIsExactForEveryScalar := fun x n =>
  have hexact := val_ui64MulN_add_carryOut x n
  ⟨mulCarry x n, mulCarry_zero x n, fun i hi => ⟨digit_ui64MulN x n hi, mulCarry_succ x n i⟩, rfl,
    val_eq_mod hexact, hexact.symm, fun _ hn i _ => (mulCarry_le x n i).trans_lt hn⟩

end Sys2Proof

/-! UI32 arithmetic (spec/41_ui32.md R100 to R103): the word primitives in numbers and bit by bit. -/

namespace Sys2Proof

open Machine

/-! ### `add32` (R100) -/

theorem toNat_add32 (a b : Word) : (add32 a b).toNat = (a.toNat + b.toNat) % 2 ^ 32 :=
  BitVec.toNat_add a b

theorem add32_comm (a b : Word) : add32 a b = add32 b a := BitVec.add_comm a b

theorem add32_assoc (a b c : Word) : add32 (add32 a b) c = add32 a (add32 b c) := BitVec.add_assoc a b c

/-- Settles O28: `add32` is the addition of bit vectors. -/
theorem add32WrapsAround : Obligations.Add32WrapsAround :=
  ⟨toNat_add32, add32_comm, add32_assoc, by decide, by decide, by decide⟩

/-! ### `rotl32` (R101) -/

/-- The bits below `n` come from the top of the word, the others from `n` places lower; `(i + (32 - n)) % 32` says
both. -/
theorem getLsbD_rotl32 (x : Word) {n i : Nat} (hn : n < 32) (hi : i < 32) :
    (rotl32 x n).getLsbD i = x.getLsbD ((i + (32 - n)) % 32) := by
  rw [rotl32, BitVec.getLsbD_rotateLeft_of_le hn]
  by_cases hwrap : i < n
  · have hsource : (i + (32 - n)) % 32 = 32 - n + i := by omega
    simp [hwrap, hsource]
  · have hsource : (i + (32 - n)) % 32 = i - n := by omega
    simp [hwrap, hi, hsource]

theorem rotl32_zero (x : Word) : rotl32 x 0 = x :=
  BitVec.eq_of_getLsbD_eq fun i hi => by
    rw [getLsbD_rotl32 x (by decide) hi, Nat.sub_zero, Nat.add_mod_right, Nat.mod_eq_of_lt hi]

/-- The part shifted left is a multiple of `2 ^ n` and the part shifted right is below it, so joining the two by
OR adds them. -/
theorem toNat_rotl32 (x : Word) {n : Nat} (hn : n < 32) :
    (rotl32 x n).toNat = x.toNat * 2 ^ n % 2 ^ 32 + x.toNat / 2 ^ (32 - n) := by
  have hsplit : 2 ^ 32 = 2 ^ n * 2 ^ (32 - n) := by rw [← pow_add, Nat.add_sub_cancel' hn.le]
  have hhigh : x.toNat * 2 ^ n % 2 ^ 32 = 2 ^ n * (x.toNat % 2 ^ (32 - n)) := by
    rw [hsplit, mul_comm, Nat.mul_mod_mul_left]
  have hlow : x.toNat / 2 ^ (32 - n) < 2 ^ n := Nat.div_lt_of_lt_mul (by rw [mul_comm, ← hsplit]; exact x.isLt)
  rw [rotl32, BitVec.toNat_rotateLeft, Nat.mod_eq_of_lt hn, Nat.shiftLeft_eq, Nat.shiftRight_eq_div_pow, hhigh,
    Nat.two_pow_add_eq_or_of_lt hlow]

/-- Settles O29: the bits, and from them the amount 0; the formula holds for it too. -/
theorem rotl32RotatesLeft : Obligations.Rotl32RotatesLeft :=
  ⟨fun x _ hn => ⟨rotl32_zero x, fun _ => toNat_rotl32 x hn, fun _ hi => getLsbD_rotl32 x hn hi⟩,
    by decide, by decide, by decide⟩

/-! ### `not32`, `and32`, `or32`, `xor32` (R102, R103) -/

theorem toNat_not32 (x : Word) : (not32 x).toNat = 2 ^ 32 - 1 - x.toNat := BitVec.toNat_not

theorem getLsbD_and32 (a b : Word) (i : Nat) : (and32 a b).getLsbD i = (a.getLsbD i && b.getLsbD i) :=
  BitVec.getLsbD_and

theorem getLsbD_or32 (a b : Word) (i : Nat) : (or32 a b).getLsbD i = (a.getLsbD i || b.getLsbD i) :=
  BitVec.getLsbD_or

theorem getLsbD_xor32 (a b : Word) (i : Nat) : (xor32 a b).getLsbD i = (a.getLsbD i ^^ b.getLsbD i) :=
  BitVec.getLsbD_xor

/-- Settles O30: one fact per operation. -/
theorem bitwiseOperationsBitByBit : Obligations.BitwiseOperationsBitByBit :=
  ⟨toNat_not32, fun a b i _ => ⟨getLsbD_and32 a b i, getLsbD_or32 a b i, getLsbD_xor32 a b i⟩,
    by decide, by decide, by decide, by decide, by decide⟩

end Sys2Proof

/-! The Byte/Word Codec (spec/42_codec.md R110 to R113). Packing `q` octets and unpacking them are the two directions
of `finFunctionFinEquiv`, Mathlib's bijection between the digit strings of length `q` and the numbers below
`256 ^ q`; the byte order only says at which place each octet stands as a digit. -/

namespace Sys2Proof

open Machine

/-! ### Places and weights -/

theorem octetPlace_lt (o : ByteOrder) {q m : Nat} (hm : m < q) : octetPlace o q m < q := by
  cases o <;> simp only [octetPlace] <;> omega

theorem octetPlace_octetPlace (o : ByteOrder) {q m : Nat} (hm : m < q) : octetPlace o q (octetPlace o q m) = m := by
  cases o <;> simp only [octetPlace]
  omega

theorem octetPlace_of_ne {o other : ByteOrder} (hne : other ≠ o) {q m : Nat} (hm : m < q) :
    octetPlace other q m = octetPlace o q (q - 1 - m) := by
  cases o <;> cases other <;> simp only [octetPlace, ne_eq, not_true_eq_false] at hne ⊢
  omega

theorem two_pow_bitsOfWidth (w : Width) : 2 ^ bitsOfWidth w = 256 ^ octetsPerWord w := pow_mul 2 8 _

/-- The weights of R110 and R112 are the powers of 256 of the model. -/
theorem weight_eq_pow_octetPlace (o : ByteOrder) (w : Width) (m : Nat) :
    (if o = .big then 2 ^ (bitsOfWidth w - 8 - 8 * m) else 2 ^ (8 * m)) = 256 ^ octetPlace o (octetsPerWord w) m := by
  have hbig : bitsOfWidth w - 8 - 8 * m = 8 * (octetsPerWord w - 1 - m) := by rw [bitsOfWidth]; omega
  cases o <;> simp [octetPlace, hbig, pow_mul]

theorem lt_ceilDiv_iff {n q j : Nat} (hq : 0 < q) : j < ceilDiv n q ↔ j * q < n := by
  rw [ceilDiv, ← Nat.succ_le_iff, Nat.le_div_iff_mul_le hq, Nat.succ_mul]
  omega

/-! ### One word -/

theorem packOctets_eq_finFunctionFinEquiv (o : ByteOrder) (q : Nat) (octets : List Octet) :
    packOctets o q octets =
      (finFunctionFinEquiv fun p : Fin q => (octets[octetPlace o q p]?.getD 0#8).toFin : Fin (256 ^ q)).val := by
  have hmem : ∀ m ∈ Finset.range q, octetPlace o q m ∈ Finset.range q := fun m hm =>
    Finset.mem_range.mpr (octetPlace_lt o (Finset.mem_range.mp hm))
  have hinv : ∀ m ∈ Finset.range q, octetPlace o q (octetPlace o q m) = m := fun m hm =>
    octetPlace_octetPlace o (Finset.mem_range.mp hm)
  calc packOctets o q octets
      = ∑ m ∈ Finset.range q, (octets[m]?.getD 0#8).toNat * 256 ^ octetPlace o q m := rfl
    _ = ∑ p ∈ Finset.range q, (octets[octetPlace o q p]?.getD 0#8).toNat * 256 ^ p :=
      Finset.sum_nbij' _ _ hmem hmem hinv hinv fun m hm => by rw [hinv m hm]
    _ = _ := Finset.sum_range _

theorem packOctets_lt (o : ByteOrder) (w : Width) (octets : List Octet) :
    packOctets o (octetsPerWord w) octets < 2 ^ 32 := by
  calc packOctets o (octetsPerWord w) octets
      < 256 ^ octetsPerWord w := by rw [packOctets_eq_finFunctionFinEquiv]; exact Fin.isLt _
    _ ≤ 256 ^ 4 := Nat.pow_le_pow_right (by decide) (octetsPerWord_le w)

/-- Octet `m` can be read back from the packed word. -/
theorem packOctets_div_pow_mod (o : ByteOrder) {q m : Nat} (hm : m < q) (octets : List Octet) :
    packOctets o q octets / 256 ^ octetPlace o q m % 256 = (octets[m]?.getD 0#8).toNat := by
  have hdigit := congrArg Fin.val (congrFun (finFunctionFinEquiv.symm_apply_apply
    fun p : Fin q => (octets[octetPlace o q p]?.getD 0#8).toFin) ⟨_, octetPlace_lt o hm⟩)
  rw [packOctets_eq_finFunctionFinEquiv]
  simp only [octetPlace_octetPlace o hm] at hdigit
  exact hdigit

/-- The word whose octets are those of `n` is `n`. -/
theorem packOctets_eq_of_octets (o : ByteOrder) {q n : Nat} (hn : n < 256 ^ q) {octets : List Octet}
    (hoctets : ∀ m < q, octets[m]? = some (BitVec.ofNat 8 (n / 256 ^ octetPlace o q m))) :
    packOctets o q octets = n := by
  have hdigits : (fun p : Fin q => (octets[octetPlace o q p]?.getD 0#8).toFin) =
      finFunctionFinEquiv.symm ⟨n, hn⟩ := funext fun p => Fin.ext <| by
    rw [hoctets _ (octetPlace_lt o p.isLt), octetPlace_octetPlace o p.isLt]
    rfl
  rw [packOctets_eq_finFunctionFinEquiv, hdigits, Equiv.apply_symm_apply]

/-- An octet below the width does not depend on the bits above it. -/
theorem mod_pow_div_pow_mod {q p : Nat} (hp : p < q) (n : Nat) : n % 256 ^ q / 256 ^ p % 256 = n / 256 ^ p % 256 := by
  rw [← Nat.add_sub_cancel' hp.le, pow_add, Nat.mod_mul_right_div_self,
    Nat.mod_mod_of_dvd _ (dvd_pow_self 256 (Nat.sub_ne_zero_of_lt hp))]

theorem unpackWord_of_ne {o other : ByteOrder} (hne : other ≠ o) (q : Nat) (x : Word) :
    unpackWord other q x = (unpackWord o q x).reverse := by
  simp only [unpackWord]
  refine List.ext_getElem (by simp) fun m hm _ => ?_
  have hm : m < q := by simpa using hm
  simp [octetPlace_of_ne hne hm]

/-! ### `StringToWords` (R110, R111) -/

theorem stringToWords_eq_map (w : Width) (o : ByteOrder) (octets : List Octet) :
    stringToWords w o octets = (List.range (ceilDiv octets.length (octetsPerWord w))).map fun j =>
      BitVec.ofNat 32 (packOctets o (octetsPerWord w) (octets.drop (j * octetsPerWord w))) := by
  refine List.ext_getElem (by simp [length_stringToWords]) fun j hj _ => ?_
  rw [length_stringToWords, lt_ceilDiv_iff (octetsPerWord_pos w)] at hj
  simpa using (List.getElem?_eq_some_iff.mp (getElem?_stringToWords w o octets j hj)).2

theorem toNat_wordAt_stringToWords (w : Width) (o : ByteOrder) (octets : List Octet) {j : Nat}
    (hj : j < (stringToWords w o octets).length) :
    (wordAt (stringToWords w o octets) j).toNat =
      packOctets o (octetsPerWord w) (octets.drop (j * octetsPerWord w)) := by
  rw [length_stringToWords, lt_ceilDiv_iff (octetsPerWord_pos w)] at hj
  rw [wordAt, getElem?_stringToWords w o octets j hj, Option.getD_some, BitVec.toNat_ofNat,
    Nat.mod_eq_of_lt (packOctets_lt o w _)]

/-- A word of one octet has one place, whatever the byte order. -/
theorem stringToWords_w8_order (o other : ByteOrder) (octets : List Octet) :
    stringToWords .w8 o octets = stringToWords .w8 other octets := by
  have hplace : ∀ order : ByteOrder, octetPlace order 1 0 = 0 := fun order => by cases order <;> rfl
  simp [stringToWords_eq_map, packOctets, octetsPerWord, hplace]

/-- Settles O31: word `j` is `packOctets` of the octets from place `j * q` on, and that is below `2 ^ 32`. -/
theorem stringToWordsPacksOctets : Obligations.StringToWordsPacksOctets := by
  intro w o octets
  refine ⟨length_stringToWords w o octets, fun j hj => ?_, rfl, stringToWords_w8_order .big .little octets⟩
  simp only [toNat_wordAt_stringToWords w o octets hj, weight_eq_pow_octetPlace, packOctets, List.getElem?_drop]

/-! ### `WordsToString` (R112) -/

/-- Settles O32: taking the word modulo `2 ^ width` first changes none of the octets taken. -/
theorem wordsToStringUnpacksWords : Obligations.WordsToStringUnpacksWords := by
  intro w o words
  refine ⟨length_wordsToString w o words, fun j m hj hm => ?_⟩
  rw [getElem?_wordsToString w o words j m hj hm, weight_eq_pow_octetPlace, two_pow_bitsOfWidth]
  exact congrArg some (BitVec.eq_of_toNat_eq (mod_pow_div_pow_mod (octetPlace_lt o hm) _).symm)

/-! ### The inverse laws (R113) -/

theorem ceilDiv_mul_self (w : Width) (n : Nat) : ceilDiv (n * octetsPerWord w) (octetsPerWord w) = n := by
  cases w <;> simp only [ceilDiv, octetsPerWord] <;> omega

/-- The octets the padding adds complete the last group. -/
theorem ceilDiv_mul (w : Width) (n : Nat) :
    ceilDiv n (octetsPerWord w) * octetsPerWord w =
      n + (octetsPerWord w - n % octetsPerWord w) % octetsPerWord w := by
  cases w <;> simp only [ceilDiv, octetsPerWord] <;> omega

/-- Octet `n` comes back from word `n / q`; past the end the octet is zero. -/
theorem getElem?_wordsToString_stringToWords (w : Width) (o : ByteOrder) (octets : List Octet) {n : Nat}
    (hn : n < (wordsToString w o (stringToWords w o octets)).length) :
    (wordsToString w o (stringToWords w o octets))[n]? = some (octets[n]?.getD 0#8) := by
  rw [length_wordsToString] at hn
  have hword : n / octetsPerWord w < (stringToWords w o octets).length :=
    Nat.div_lt_of_lt_mul (by rwa [Nat.mul_comm])
  have hplace : n % octetsPerWord w < octetsPerWord w := Nat.mod_lt _ (octetsPerWord_pos w)
  have hoctet := packOctets_div_pow_mod o hplace (octets.drop (n / octetsPerWord w * octetsPerWord w))
  have hget := getElem?_wordsToString w o (stringToWords w o octets) _ _ hword hplace
  rw [List.getElem?_drop, Nat.div_add_mod'] at hoctet
  rw [Nat.div_add_mod', toNat_wordAt_stringToWords w o octets hword] at hget
  exact hget.trans (congrArg some (BitVec.eq_of_toNat_eq hoctet))

theorem getElem?_append_replicate {α : Type} (l : List α) (k : Nat) (a : α) {n : Nat} (hn : n < l.length + k) :
    (l ++ List.replicate k a)[n]? = some (l[n]?.getD a) := by
  by_cases h : n < l.length
  · simp [List.getElem?_append_left h, h]
  · have hpad : n - l.length < k := by omega
    simp [List.getElem?_append_right (Nat.le_of_not_lt h), h, hpad]

theorem wordsToString_stringToWords (w : Width) (o : ByteOrder) (octets : List Octet) :
    wordsToString w o (stringToWords w o octets) =
      octets ++ List.replicate ((octetsPerWord w - octets.length % octetsPerWord w) % octetsPerWord w) 0#8 := by
  have hlength : (wordsToString w o (stringToWords w o octets)).length = octets.length +
      (octetsPerWord w - octets.length % octetsPerWord w) % octetsPerWord w := by
    rw [length_wordsToString, length_stringToWords, ceilDiv_mul]
  refine List.ext_getElem?' fun n hn => ?_
  have hn : n < (wordsToString w o (stringToWords w o octets)).length := by simpa [hlength] using hn
  rw [getElem?_wordsToString_stringToWords w o octets hn, getElem?_append_replicate _ _ _ (hlength ▸ hn)]

theorem stringToWords_wordsToString (w : Width) (o : ByteOrder) {words : List Word}
    (hfit : ∀ x ∈ words, x.toNat < 2 ^ bitsOfWidth w) : stringToWords w o (wordsToString w o words) = words := by
  rw [stringToWords_eq_map, length_wordsToString, ceilDiv_mul_self]
  refine List.ext_getElem (by simp) fun j _ hj => ?_
  have hpack : packOctets o (octetsPerWord w) ((wordsToString w o words).drop (j * octetsPerWord w)) =
      words[j].toNat := by
    refine packOctets_eq_of_octets o (two_pow_bitsOfWidth w ▸ hfit _ (List.getElem_mem hj)) fun m hm => ?_
    rw [List.getElem?_drop, getElem?_wordsToString w o words j m hj hm, wordAt, List.getElem?_eq_getElem hj,
      Option.getD_some]
  simp [hpack]

theorem wordsToString_of_ne (w : Width) {o other : ByteOrder} (hne : other ≠ o) (words : List Word) :
    wordsToString w other words = words.flatMap fun x => (wordsToString w o [x]).reverse := by
  simp only [wordsToString, List.flatMap_cons, List.flatMap_nil, List.append_nil, ← unpackWord_of_ne hne]

/-- Settles O33: the second law is the first where nothing is padded. -/
theorem codecInverseLaws : Obligations.CodecInverseLaws := by
  refine fun w o => ⟨wordsToString_stringToWords w o, fun octets => ?_,
    fun _ hfit => stringToWords_wordsToString w o hfit, fun _ _ hne => wordsToString_of_ne w hne _⟩
  have hpad : (octetsPerWord w - octets.length % octetsPerWord w) % octetsPerWord w = 0 ↔
      octets.length % octetsPerWord w = 0 := by
    cases w <;> simp only [octetsPerWord] <;> omega
  rw [wordsToString_stringToWords, List.append_right_eq_self, List.replicate_eq_nil_iff, hpad]

/-! ### Wide input units (R111) -/

/-- Settles O34: `unitsToWords` unpacks the units in big-endian order. -/
theorem wideUnitsSplitMostSignificantFirst : Obligations.WideUnitsSplitMostSignificantFirst := by
  intro u w o units
  have hweight : ∀ m, 2 ^ (bitsOfWidth u - 8 - 8 * m) = 256 ^ octetPlace .big (octetsPerWord u) m :=
    fun m => weight_eq_pow_octetPlace .big u m
  simp only [hweight]
  rfl

end Sys2Proof

/-! MD5 (spec/43_md5.md R132 to R138). What the two digests share is stated for both byte orders: the padded message
(R137; 44_sha1.md R166) and its blocks of 16 words. -/

namespace Sys2Proof

open Machine

/-! ### The padded message (R137) -/

/-- `z` makes the padded message a whole number of blocks. -/
theorem length_add_padZeros (len : Nat) : len + 1 + padZeros len + 8 = 64 * blockCount len := by
  rw [padZeros, blockCount]
  omega

theorem length_padMessage (o : ByteOrder) (msg : List Octet) :
    (padMessage o msg).length = 64 * blockCount msg.length := by
  rw [← length_add_padZeros]
  simp only [padMessage, lengthOctets, List.length_append, List.length_cons, List.length_replicate, List.length_map,
    List.length_range]
  omega

theorem length_stringToWords_padMessage (o : ByteOrder) (msg : List Octet) :
    (stringToWords .w32 o (padMessage o msg)).length = 16 * blockCount msg.length := by
  rw [length_stringToWords, length_padMessage, ceilDiv, octetsPerWord]
  omega

theorem getElem?_padMessage_of_lt (o : ByteOrder) (msg : List Octet) {n : Nat} (hn : n < msg.length) :
    (padMessage o msg)[n]? = msg[n]? :=
  List.getElem?_append_left hn

theorem getElem?_padMessage_length (o : ByteOrder) (msg : List Octet) :
    (padMessage o msg)[msg.length]? = some 0x80#8 := by
  simp [padMessage]

/-- After the message and `0x80` stand the zero octets and the bit length. -/
theorem drop_padMessage (o : ByteOrder) (msg : List Octet) :
    (padMessage o msg).drop (msg.length + 1) =
      List.replicate (padZeros msg.length) 0#8 ++ lengthOctets o (bitLength msg.length) := by
  simp [padMessage, ← List.drop_drop]

theorem getElem?_padMessage_zeros (o : ByteOrder) (msg : List Octet) {n : Nat} (hn : n < padZeros msg.length) :
    (padMessage o msg)[msg.length + 1 + n]? = some 0#8 := by
  rw [← List.getElem?_drop, drop_padMessage, List.getElem?_append_left (by simpa using hn),
    List.getElem?_replicate_of_lt hn]

theorem getElem?_padMessage_bitLength (o : ByteOrder) (msg : List Octet) {n : Nat} (hn : n < 8) :
    (padMessage o msg)[msg.length + 1 + padZeros msg.length + n]? =
      some (BitVec.ofNat 8 (bitLength msg.length / 256 ^ octetPlace o 8 n)) := by
  rw [Nat.add_assoc, ← List.getElem?_drop, drop_padMessage, List.getElem?_append_right (by simp)]
  simp [lengthOctets, hn]

/-- Octet `m` of word `i` of the eight length octets. -/
theorem octetPlace_two_words (o : ByteOrder) {i m : Nat} (hi : i < 2) (hm : m < 4) :
    octetPlace o 8 (4 * i + m) = 4 * octetPlace o 2 i + octetPlace o 4 m := by
  cases o <;> simp only [octetPlace]
  omega

/-- The last two words of the last block are the two halves of the bit length. -/
theorem toNat_wordAt_padMessage_bitLength (o : ByteOrder) (msg : List Octet) {i : Nat} (hi : i < 2) :
    (wordAt (stringToWords .w32 o (padMessage o msg)) (16 * ((msg.length + 8) / 64) + (14 + i))).toNat =
      bitLength msg.length / (256 ^ 4) ^ octetPlace o 2 i % 256 ^ 4 := by
  have hlength := length_add_padZeros msg.length
  rw [blockCount] at hlength
  have hword : 16 * ((msg.length + 8) / 64) + (14 + i) < (stringToWords .w32 o (padMessage o msg)).length := by
    rw [length_stringToWords_padMessage, blockCount]
    omega
  rw [toNat_wordAt_stringToWords _ _ _ hword]
  refine packOctets_eq_of_octets o (Nat.mod_lt _ (by decide)) fun m (hm : m < 4) => ?_
  have hplace : (16 * ((msg.length + 8) / 64) + (14 + i)) * 4 + m =
      msg.length + 1 + padZeros msg.length + (4 * i + m) := by omega
  rw [List.getElem?_drop, octetsPerWord, hplace, getElem?_padMessage_bitLength o msg (by omega),
    octetPlace_two_words o hi hm, pow_add, pow_mul, ← Nat.div_div_eq_div_mul]
  exact congrArg some (BitVec.eq_of_toNat_eq (mod_pow_div_pow_mod (octetPlace_lt o hm) _).symm)

/-- Settles O38: the model's padding in little-endian order, with `z` its `padZeros`. -/
theorem md5PadLaysOutTheMessage : Obligations.Md5PadLaysOutTheMessage := by
  intro msg
  have htotal := length_add_padZeros msg.length
  have hlow := toNat_wordAt_padMessage_bitLength .little msg (i := 0) (by decide)
  have hhigh := toNat_wordAt_padMessage_bitLength .little msg (i := 1) (by decide)
  refine ⟨padZeros msg.length, Nat.mod_lt _ (by decide), htotal, (length_padMessage _ msg).trans htotal.symm,
    fun _ hn => getElem?_padMessage_of_lt _ msg hn, getElem?_padMessage_length _ msg,
    fun _ hn => getElem?_padMessage_zeros _ msg hn, fun n hn => ?_, ?_, ?_⟩
  · rw [pow_mul]
    exact getElem?_padMessage_bitLength .little msg hn
  · simpa [md5Pad, octetPlace, bitLength] using hlow
  · have hbound : 8 * msg.length % 2 ^ 64 / 2 ^ 32 < 2 ^ 32 := Nat.div_lt_of_lt_mul (Nat.mod_lt _ (by decide))
    exact hhigh.trans (Nat.mod_eq_of_lt hbound)

/-! ### Blocks of 16 words -/

/-- Block `k` of a list of words. -/
def wordBlock (words : List Word) (k : Nat) : List Word := (words.drop (16 * k)).take 16

theorem wordAt_wordBlock (words : List Word) (k : Nat) {j : Nat} (hj : j < 16) :
    wordAt (wordBlock words k) j = wordAt words (16 * k + j) := by
  simp [wordAt, wordBlock, hj]

theorem wordBlock_succ (words : List Word) (k : Nat) : wordBlock words (k + 1) = wordBlock (words.drop 16) k := by
  rw [wordBlock, wordBlock, List.drop_drop, Nat.mul_succ, Nat.add_comm]

theorem length_wordBlock_padMessage (o : ByteOrder) (msg : List Octet) {k : Nat} (hk : k < blockCount msg.length) :
    (wordBlock (stringToWords .w32 o (padMessage o msg)) k).length = 16 := by
  rw [wordBlock, List.length_take, List.length_drop, length_stringToWords_padMessage]
  omega

/-- Word `j` of block `k` packs the four octets from place `64 * k + 4 * j` on. -/
theorem toNat_wordAt_wordBlock_padMessage (o : ByteOrder) (msg : List Octet) {k j : Nat}
    (hk : k < blockCount msg.length) (hj : j < 16) :
    (wordAt (wordBlock (stringToWords .w32 o (padMessage o msg)) k) j).toNat =
      packOctets o 4 ((padMessage o msg).drop (64 * k + 4 * j)) := by
  have hword : 16 * k + j < (stringToWords .w32 o (padMessage o msg)).length := by
    rw [length_stringToWords_padMessage]
    omega
  have hplace : (16 * k + j) * 4 = 64 * k + 4 * j := by omega
  rw [wordAt_wordBlock _ k hj, toNat_wordAt_stringToWords _ _ _ hword, octetsPerWord, hplace]

/-! ### The compression function (R132 to R136) -/

theorem md5Steps_succ (block : List Word) (x : Md5Acc) (n : Nat) :
    md5Steps block x (n + 1) = md5Step block (md5Steps block x n) n := by
  rw [md5Steps, List.range_succ, List.foldl_append]
  rfl

/-- Settles O37: the working words are `md5Steps`; the formula written out is `md5Step` with the names of its parts
unfolded. -/
theorem md5CompressIsSixtyFourSteps : Obligations.Md5CompressIsSixtyFourSteps :=
  fun acc block => ⟨md5Steps block acc, rfl, fun i _ => md5Steps_succ block acc i, rfl⟩

/-! ### The digest (R138) -/

/-- `md5Blocks` takes its blocks from the front; the last one it compresses is block `n`. -/
theorem md5Blocks_succ (n : Nat) (acc : Md5Acc) (words : List Word) :
    md5Blocks (n + 1) acc words = md5Compress (md5Blocks n acc words) (wordBlock words n) := by
  induction n generalizing acc words with
  | zero => rfl
  | succ n ih =>
    rw [wordBlock_succ]
    exact ih (md5Compress acc (words.take 16)) (words.drop 16)

theorem getElem?_md5Octets (x : Md5Acc) {n : Nat} (hn : n < 16) :
    (md5Octets x)[n]? = some (BitVec.ofNat 8 ((wordAt x.toList (n / 4)).toNat / 2 ^ (8 * (n % 4)))) := by
  have hword : n / 4 < x.toList.length := Nat.div_lt_of_lt_mul hn
  have hget := getElem?_wordsToString .w32 .little x.toList (n / 4) (n % 4) hword (Nat.mod_lt _ (by decide))
  rw [octetsPerWord, Nat.div_add_mod'] at hget
  rw [pow_mul]
  exact hget

/-- Settles O39: the accumulators are those `md5Blocks` leaves after each number of blocks. -/
theorem md5DigestChainsTheBlocks : Obligations.Md5DigestChainsTheBlocks := by
  intro msg
  refine ⟨fun k => md5Blocks k md5Iv (stringToWords .w32 .little (md5Pad msg)), rfl, fun k hk => ?_, rfl,
    length_md5Octets _, fun _ hn => getElem?_md5Octets _ hn⟩
  refine ⟨wordBlock (stringToWords .w32 .little (md5Pad msg)) k, length_wordBlock_padMessage .little msg hk,
    fun j hj => ?_, md5Blocks_succ k _ _⟩
  simp only [md5Pad, toNat_wordAt_wordBlock_padMessage .little msg hk hj, packOctets, octetPlace, List.getElem?_drop,
    pow_mul]
  rfl

end Sys2Proof

/-! SHA-1 (spec/44_sha1.md R161 to R167). The padded message and its blocks are those of the MD5 part, here in
big-endian order. -/

namespace Sys2Proof

open Machine

/-! ### The schedule (R163) -/

/-- `sha1Extend` puts its words on one at a time; the last one it puts on is the next word of what stood before. -/
theorem sha1Extend_succ (n : Nat) (newestFirst : List Word) :
    sha1Extend (n + 1) newestFirst =
      sha1NextWord (sha1Extend n newestFirst) :: sha1Extend n newestFirst := by
  induction n generalizing newestFirst with
  | zero => rfl
  | succ n ih => exact ih (sha1NextWord newestFirst :: newestFirst)

theorem length_sha1Extend (n : Nat) (newestFirst : List Word) :
    (sha1Extend n newestFirst).length = newestFirst.length + n := by
  induction n with
  | zero => rfl
  | succ n ih => rw [sha1Extend_succ, List.length_cons, ih, Nat.add_assoc]

theorem drop_sha1Extend (n k : Nat) (newestFirst : List Word) :
    (sha1Extend (n + k) newestFirst).drop k = sha1Extend n newestFirst := by
  induction k with
  | zero => rfl
  | succ k ih => rw [← Nat.add_assoc, sha1Extend_succ, List.drop_succ_cons, ih]

theorem length_sha1Schedule {block : List Word} (hblock : block.length = 16) : (sha1Schedule block).length = 80 := by
  rw [sha1Schedule, List.length_reverse, length_sha1Extend, List.length_reverse, hblock]
  rfl

/-- The words below `16 + n` stand once `n` words are put on, at the place counted from the newest. -/
theorem getElem?_sha1Schedule {block : List Word} (hblock : block.length = 16) {n t : Nat} (hn : n ≤ 64)
    (ht : t < 16 + n) : (sha1Schedule block)[t]? = (sha1Extend n block.reverse)[15 + n - t]? := by
  have hlength : (sha1Extend 64 block.reverse).length = 80 := by
    rw [length_sha1Extend, List.length_reverse, hblock]
  have hplace : 80 - 1 - t = 64 - n + (15 + n - t) := by omega
  have hdrop := drop_sha1Extend n (64 - n) block.reverse
  rw [Nat.add_sub_cancel' hn] at hdrop
  calc (sha1Schedule block)[t]?
      = (sha1Extend 64 block.reverse)[80 - 1 - t]? := by
        rw [← hlength]
        exact List.getElem?_reverse (l := sha1Extend 64 block.reverse) (by omega)
    _ = (sha1Extend n block.reverse)[15 + n - t]? := by rw [← hdrop, List.getElem?_drop, hplace]

theorem getElem?_sha1Schedule_block {block : List Word} (hblock : block.length = 16) {t : Nat} (ht : t < 16) :
    (sha1Schedule block)[t]? = block[t]? := by
  have hplace : block.length - 1 - (15 - t) = t := by omega
  rw [getElem?_sha1Schedule hblock (Nat.zero_le 64) ht, sha1Extend, List.getElem?_reverse (by omega), hplace]

theorem wordAt_sha1Schedule {block : List Word} (hblock : block.length = 16) {n t : Nat} (hn : n ≤ 64)
    (ht : t < 16 + n) : wordAt (sha1Schedule block) t = wordAt (sha1Extend n block.reverse) (15 + n - t) := by
  rw [wordAt, wordAt, getElem?_sha1Schedule hblock hn ht]

/-- Word `16 + n` is the next word of the schedule before it. -/
theorem wordAt_sha1Schedule_next {block : List Word} (hblock : block.length = 16) {n : Nat} (hn : n < 64) :
    wordAt (sha1Schedule block) (16 + n) = sha1NextWord (sha1Extend n block.reverse) := by
  have hplace : 15 + (n + 1) - (16 + n) = 0 := by omega
  rw [wordAt_sha1Schedule hblock (n := n + 1) (by omega) (by omega), sha1Extend_succ, hplace]
  rfl

/-- Settles O46: the place of a word counted from the newest is the distance back to it, less one. -/
theorem sha1ScheduleExtendsTheBlock : Obligations.Sha1ScheduleExtendsTheBlock := by
  refine fun block hblock => ⟨length_sha1Schedule hblock, fun t ht => getElem?_sha1Schedule_block hblock ht,
    fun t ht ht' => ?_⟩
  obtain ⟨n, rfl⟩ := Nat.exists_eq_add_of_le ht
  have hback : ∀ d, 0 < d → d ≤ 16 →
      wordAt (sha1Schedule block) (16 + n - d) = wordAt (sha1Extend n block.reverse) (d - 1) := fun d hd hd' => by
    have hplace : 15 + n - (16 + n - d) = d - 1 := by omega
    rw [wordAt_sha1Schedule hblock (n := n) (by omega) (by omega), hplace]
  rw [wordAt_sha1Schedule_next hblock (by omega), hback 3 (by decide) (by decide), hback 8 (by decide) (by decide),
    hback 14 (by decide) (by decide), hback 16 (by decide) (by decide)]
  rfl

/-! ### The compression function (R161, R162, R164, R165) -/

theorem sha1Steps_succ (schedule : List Word) (x : Sha1Acc) (n : Nat) :
    sha1Steps schedule x (n + 1) = sha1Step schedule (sha1Steps schedule x n) n := by
  rw [sha1Steps, List.range_succ, List.foldl_append]
  rfl

/-- The rounds 20 to 39 and 60 to 79 share one function, so the majority rounds alone need a test. -/
theorem sha1Function_eq (t : Nat) (b c d : Word) :
    sha1Function t b c d =
      if t < 20 then sha1Choose b c d
      else if 40 ≤ t ∧ t < 60 then sha1Majority b c d
      else sha1Parity b c d := by
  rw [sha1Function]
  split
  · rfl
  · by_cases h40 : t < 40
    · rw [if_pos h40, if_neg fun h => Nat.not_lt.mpr h.1 h40]
    · simp only [h40, Nat.le_of_not_lt h40, if_false, true_and]

/-- Settles O47: the working words are `sha1Steps`; the formula written out is `sha1Step` with the names of its parts
unfolded. -/
theorem sha1CompressIsEightySteps : Obligations.Sha1CompressIsEightySteps := by
  refine fun acc block => ⟨sha1Steps (sha1Schedule block) acc, rfl, fun t _ => ?_, rfl⟩
  rw [sha1Steps_succ, sha1Step, sha1Function_eq]
  rfl

/-! ### The padded message (R166) -/

/-- A big-endian weight, in the spelling of the statements and in that of `octetPlace`. -/
theorem two_pow_eight_mul_sub (k m : Nat) : 2 ^ (8 * k - 8 * m) = 256 ^ (k - m) := by
  rw [← Nat.mul_sub, pow_mul]
  rfl

/-- Settles O48: the model's padding in big-endian order, with `z` its `padZeros`. -/
theorem sha1PadLaysOutTheMessage : Obligations.Sha1PadLaysOutTheMessage := by
  intro msg
  have htotal := length_add_padZeros msg.length
  have hhigh := toNat_wordAt_padMessage_bitLength .big msg (i := 0) (by decide)
  have hlow := toNat_wordAt_padMessage_bitLength .big msg (i := 1) (by decide)
  refine ⟨padZeros msg.length, Nat.mod_lt _ (by decide), htotal, (length_padMessage _ msg).trans htotal.symm,
    fun _ hn => getElem?_padMessage_of_lt _ msg hn, getElem?_padMessage_length _ msg,
    fun _ hn => getElem?_padMessage_zeros _ msg hn, fun n hn => ?_, ?_, ?_⟩
  · have hweight : 2 ^ (56 - 8 * n) = 256 ^ (7 - n) := two_pow_eight_mul_sub 7 n
    rw [hweight]
    exact getElem?_padMessage_bitLength .big msg hn
  · have hbound : 8 * msg.length % 2 ^ 64 / 2 ^ 32 < 2 ^ 32 := Nat.div_lt_of_lt_mul (Nat.mod_lt _ (by decide))
    exact hhigh.trans (Nat.mod_eq_of_lt hbound)
  · simpa [sha1Pad, octetPlace, bitLength] using hlow

/-! ### The digest (R167) -/

/-- `sha1Blocks` takes its blocks from the front; the last one it compresses is block `n`. -/
theorem sha1Blocks_succ (n : Nat) (acc : Sha1Acc) (words : List Word) :
    sha1Blocks (n + 1) acc words = sha1Compress (sha1Blocks n acc words) (wordBlock words n) := by
  induction n generalizing acc words with
  | zero => rfl
  | succ n ih =>
    rw [wordBlock_succ]
    exact ih (sha1Compress acc (words.take 16)) (words.drop 16)

theorem getElem?_sha1Octets (x : Sha1Acc) {n : Nat} (hn : n < 20) :
    (sha1Octets x)[n]? = some (BitVec.ofNat 8 ((wordAt x.toList (n / 4)).toNat / 2 ^ (24 - 8 * (n % 4)))) := by
  have hword : n / 4 < x.toList.length := Nat.div_lt_of_lt_mul hn
  have hget := getElem?_wordsToString .w32 .big x.toList (n / 4) (n % 4) hword (Nat.mod_lt _ (by decide))
  have hweight : 2 ^ (24 - 8 * (n % 4)) = 256 ^ (3 - n % 4) := two_pow_eight_mul_sub 3 (n % 4)
  rw [octetsPerWord, Nat.div_add_mod'] at hget
  rw [hweight]
  exact hget

/-- Settles O49: the accumulators are those `sha1Blocks` leaves after each number of blocks. -/
theorem sha1DigestChainsTheBlocks : Obligations.Sha1DigestChainsTheBlocks := by
  intro msg
  have hweight : ∀ m, 2 ^ (24 - 8 * m) = 256 ^ (3 - m) := two_pow_eight_mul_sub 3
  refine ⟨fun k => sha1Blocks k sha1Iv (stringToWords .w32 .big (sha1Pad msg)), rfl, fun k hk => ?_, rfl,
    length_sha1Octets _, fun _ hn => getElem?_sha1Octets _ hn⟩
  refine ⟨wordBlock (stringToWords .w32 .big (sha1Pad msg)) k, length_wordBlock_padMessage .big msg hk,
    fun j hj => ?_, sha1Blocks_succ k _ _⟩
  simp only [sha1Pad, toNat_wordAt_wordBlock_padMessage .big msg hk hj, packOctets, octetPlace, List.getElem?_drop,
    hweight]

end Sys2Proof

/-! Fault responses (spec/60_exceptions.md R202): a command that faults changes the response port alone, and so
does a packet that is no command. -/

namespace Sys2Proof

open Machine

/-- The packet of a command is taken and the command executed on what is left. -/
theorem step_of_decode_ok {p : Packet} {i : Instr} (hd : decode p = .ok i) {s : State} {rest : List HostEvent}
    (hs : s.inbox = .packet p :: rest) : step s = exec i { s with inbox := rest } := by
  simp only [step, hs, runPacket, hd]

/-- R202 for a command. -/
theorem eq_of_exec_fault {i : Instr} {s t : State} {r : Response} (hexec : exec i s = .next t)
    (hr : t.response = some r) (hfault : r.status ≠ .ok) : t = { s with response := some ⟨r.status, 0#64⟩ } := by
  obtain ⟨t', hexec', heffect⟩ := exec_effect i s
  obtain rfl : t' = t := Host.Outcome.next.inj (hexec'.symm.trans hexec)
  obtain ⟨status, res, hresponse, -, hunchanged⟩ := heffect.answer
  obtain rfl : r = ⟨status, res⟩ := Option.some.inj (hr.symm.trans hresponse)
  exact (hunchanged hfault).2

/-- Settles O6: a packet that decodes executes its command, and any other is answered `IllegalCommand`. -/
theorem faultResponseChangesNothing : Obligations.FaultResponseChangesNothing := by
  intro s t p rest r hs hstep hr hfault
  cases hd : decode p with
  | ok i => exact eq_of_exec_fault ((step_of_decode_ok hd hs).symm.trans hstep) hr hfault
  | error e =>
    have hillegal := step_of_decode_ne_ok (p := p) (by simp [hd]) s rest hs
    obtain rfl := Host.Outcome.next.inj (hillegal.symm.trans hstep)
    obtain rfl := Option.some.inj hr
    rfl

end Sys2Proof

/-! The step of the machine (spec/00_scope.md R10; spec/30_encoding.md R61; spec/70_reset_and_hazards.md R220,
R228): every step answers a next state, and every step keeps the invariant. -/

namespace Sys2Proof

open Machine

/-! ### Every step answers -/

/-- A packet is consumed and answered, whether its command completes, faults or does not decode. -/
theorem step_answers_packet {s : State} {p : Packet} {rest : List HostEvent} (hs : s.inbox = .packet p :: rest) :
    ∃ (t : State) (status : Status) (res : Operand),
      step s = .next t ∧ t.inbox = rest ∧ t.params = s.params ∧ t.response = some ⟨status, res⟩ := by
  cases hd : decode p with
  | ok i =>
    obtain ⟨t, hexec, heffect⟩ := exec_effect i { s with inbox := rest }
    obtain ⟨status, res, hresponse, -⟩ := heffect.answer
    exact ⟨t, status, res, (step_of_decode_ok hd hs).trans hexec, heffect.inbox, heffect.params, hresponse⟩
  | error e => exact ⟨_, _, _, step_of_decode_ne_ok (by simp [hd]) s rest hs, rfl, rfl, rfl⟩

theorem step_reset {s : State} {v : ResetValues} {rest : List HostEvent} (hs : s.inbox = .reset v :: rest) :
    step s = .next (applyReset v { s with inbox := rest }) := by
  simp only [step, hs]

/-- No step of the machine stops. -/
theorem exists_step_eq_next (s : State) : ∃ t, step s = .next t := by
  cases hs : s.inbox with
  | nil => exact ⟨s, by simp only [step, hs]⟩
  | cons e rest =>
    cases e with
    | packet p =>
      obtain ⟨t, _, _, hstep, -⟩ := step_answers_packet hs
      exact ⟨t, hstep⟩
    | reset v => exact ⟨_, step_reset hs⟩

theorem run_succ_of_step {s t : State} (h : step s = .next t) (k : Nat) : core.run (k + 1) s = core.run k t := by
  have hcore : core.step s = .next t := h
  simp only [Host.Core.run, hcore]

/-- Settles O3. -/
theorem stepRunsDecodedCommand : Obligations.StepRunsDecodedCommand :=
  fun _ _ _ _ hs hd => step_of_decode_ok hd hs

/-- Settles O4. -/
theorem everyPacketIsAnswered : Obligations.EveryPacketIsAnswered :=
  fun _ _ _ hs => step_answers_packet hs

/-- Settles O5, by induction on the length of the run. -/
theorem everyRunIsSafe : Obligations.EveryRunIsSafe := by
  intro k
  induction k with
  | zero => exact fun s => ⟨s, rfl⟩
  | succ k ih =>
    intro s
    obtain ⟨t, hstep⟩ := exists_step_eq_next s
    obtain ⟨t', hrun⟩ := ih t
    exact ⟨t', (run_succ_of_step hstep k).trans hrun⟩

/-- Settles O8: the answer `exec_effect` describes. -/
theorem commandsRaiseOnlyTheirFaults : Obligations.CommandsRaiseOnlyTheirFaults := by
  intro i s
  obtain ⟨t, hexec, heffect⟩ := exec_effect i s
  obtain ⟨status, res, hresponse, hlegal, hfault⟩ := heffect.answer
  exact ⟨t, ⟨status, res⟩, hexec, hresponse, hlegal, fun hne => (hfault hne).1⟩

/-! ### Every step keeps the invariant -/

/-- A fault answers `RES = 0` (R202), so whatever a command answers is sound. -/
theorem responseSound_of_effect {i : Instr} {s t : State} (h : Effect i s t) : ResponseSound t.response := by
  obtain ⟨status, res, hresponse, -, hfault⟩ := h.answer
  rw [hresponse]
  intro hne
  obtain ⟨-, ht⟩ := hfault hne
  rw [ht] at hresponse
  obtain ⟨-, hres⟩ := Response.mk.inj (Option.some.inj hresponse)
  exact hres.symm

/-- A memory that is left alone or written inside stays canonical and inside. -/
theorem wf_and_inside_of_write {w size : Nat} {m m' : Memory w} (hwf : m.wf) (hinside : m.inside size)
    (h : m' = m ∨ ∃ (a : Nat) (vs : List (BitVec w)), a + vs.length ≤ size ∧ m' = m.writeRange a vs) :
    m'.wf ∧ m'.inside size := by
  obtain rfl | ⟨a, vs, hrange, rfl⟩ := h
  · exact ⟨hwf, hinside⟩
  · exact ⟨Memory.wf_writeRange vs m hwf a, Memory.inside_writeRange size vs m hinside a hrange⟩

theorem inv_of_effect {i : Instr} {s t : State} (hinv : Inv s) (h : Effect i s t) : Inv t := by
  obtain ⟨hbwf, hbin⟩ := wf_and_inside_of_write hinv.bmem_canonical hinv.bmem_inside h.bmem
  obtain ⟨hwwf, hwin⟩ := wf_and_inside_of_write hinv.wmem_canonical hinv.wmem_inside h.wmem
  rw [← h.params] at hbin hwin
  exact ⟨h.params ▸ hinv.params_ok, hbwf, hbin, hwwf, hwin, responseSound_of_effect h⟩

/-- A reset drops what it brings outside the memories and puts the rest in canonical form (log 8). -/
theorem inv_applyReset {s : State} (hinv : Inv s) (v : ResetValues) : Inv (applyReset v s) :=
  ⟨hinv.params_ok, Memory.wf_ofCells _ _, Memory.inside_ofCells _ _, Memory.wf_ofCells _ _,
    Memory.inside_ofCells _ _, trivial⟩

/-- The events still to come are no part of the invariant. -/
theorem inv_with_inbox {s : State} (hinv : Inv s) (rest : List HostEvent) : Inv { s with inbox := rest } :=
  ⟨hinv.params_ok, hinv.bmem_canonical, hinv.bmem_inside, hinv.wmem_canonical, hinv.wmem_inside,
    hinv.response_sound⟩

theorem inv_respond_fault {s : State} (hinv : Inv s) (status : Status) : Inv (s.respond status 0#64) :=
  ⟨hinv.params_ok, hinv.bmem_canonical, hinv.bmem_inside, hinv.wmem_canonical, hinv.wmem_inside, fun _ => rfl⟩

/-- Settles O1: the two memories are empty and no response has been given. -/
theorem resetMeetsInvariant : Obligations.ResetMeetsInvariant :=
  ⟨by decide, by decide, by decide, by decide, by decide, trivial⟩

/-- Settles O2: one lemma per case of `step_cases`. -/
theorem stepKeepsInvariant : Obligations.StepKeepsInvariant := by
  intro s t hinv hstep
  obtain ⟨-, rfl⟩ | ⟨v, rest, -, rfl⟩ | ⟨p, rest, e, -, -, rfl⟩ | ⟨p, rest, i, -, -, hexec⟩ :=
    step_cases s t hstep
  · exact hinv
  · exact inv_applyReset (inv_with_inbox hinv rest) v
  · exact inv_respond_fault (inv_with_inbox hinv rest) _
  · obtain ⟨t', hexec', heffect⟩ := exec_effect i { s with inbox := rest }
    obtain rfl := Host.Outcome.next.inj (hexec'.symm.trans hexec)
    exact inv_of_effect (inv_with_inbox hinv rest) heffect

/-! ### Reset -/

/-- A cell above the others is written at the end of the list. -/
theorem write_of_gt {w : Nat} {m : Memory w} {a : Nat} {v : BitVec w} (hgt : ∀ c ∈ m, c.1 < a)
    (hv : v ≠ Memory.unlisted) : m.write a v = m ++ [(a, v)] := by
  induction m with
  | nil => simp [Memory.write, Memory.consCell, hv]
  | cons c m ih =>
    have hc : c.1 < a := hgt c (by simp)
    have htail := ih fun d hd => hgt d (by simp [hd])
    simp [Memory.write, htail, Nat.lt_asymm hc, Nat.ne_of_gt hc]

/-- Canonical cells that lie inside are the memory they describe: each is written above those before it. -/
theorem ofCells_of_wf {w size : Nat} {cells : Memory w} (hwf : cells.wf) (hinside : cells.inside size) :
    Memory.ofCells size cells = cells := by
  induction cells using List.reverseRecOn with
  | nil => rfl
  | append_singleton l c ih =>
    obtain ⟨hrising, hlisted⟩ := hwf
    obtain ⟨hl, -, hbelow⟩ := List.pairwise_append.mp hrising
    have hprefix : Memory.ofCells size l = l :=
      ih ⟨hl, fun d hd => hlisted d (by simp [hd])⟩ fun d hd => hinside d (by simp [hd])
    have hc : c.1 < size := hinside c (by simp)
    rw [Memory.ofCells] at hprefix ⊢
    rw [List.foldl_append, hprefix, List.foldl_cons, List.foldl_nil, if_pos hc,
      write_of_gt (fun d hd => hbelow d hd c (by simp)) (hlisted c (by simp))]

/-- Settles O9: the two memories are `Memory.ofCells` of what the event brings. -/
theorem resetEventLoadsItsValues : Obligations.ResetEventLoadsItsValues :=
  fun _ _ _ hs => ⟨_, _, step_reset hs, ofCells_of_wf, ofCells_of_wf⟩

end Sys2Proof

/-! What a command can read and write (spec/10_state.md R22 to R26; spec/60_exceptions.md R206), said once for the
five pieces of state: `exec_overlay`. Who touches what, and that nothing depends on the response port, are
cases of it. -/

namespace Sys2Proof

open Machine

/-- What a command that leaves `t` makes of a state `s'` that looks the same to it: the pieces of state it uses and
the response are those of `t`, all else stays as in `s'`. -/
def overlay (i : Instr) (s' t : State) : State where
  u := if usesU i then t.u else s'.u
  ma := if usesMa i then t.ma else s'.ma
  sh := if usesSh i then t.sh else s'.sh
  bmem := if usesBmem i then t.bmem else s'.bmem
  wmem := if usesWmem i then t.wmem else s'.wmem
  params := s'.params
  inbox := s'.inbox
  response := t.response

/-- The two states agree in the parameters and in the pieces of state the command uses. -/
structure AgreeFor (i : Instr) (s s' : State) : Prop where
  params : s'.params = s.params
  u : usesU i = true → s'.u = s.u
  ma : usesMa i = true → s'.ma = s.ma
  sh : usesSh i = true → s'.sh = s.sh
  bmem : usesBmem i = true → s'.bmem = s.bmem
  wmem : usesWmem i = true → s'.wmem = s.wmem

/-- The next state changed by `f`. -/
def onNext (f : State → State) : Result → Result
  | .next t => .next (f t)
  | .fault r => .fault r
  | .refused r => .refused r

theorem onNext_next (f : State → State) (t : State) : onNext f (.next t) = .next (f t) := rfl

theorem exec_overlay {i : Instr} {s s' : State} (h : AgreeFor i s s') :
    exec i s' = onNext (overlay i s') (exec i s) := by
  obtain ⟨hparams, hu, hma, hsh, hbmem, hwmem⟩ := h
  cases i with
  | u64Ldn rd n => simp only [exec_u64Ldn, hu rfl]; rfl
  | u64Add rd rs => simp only [exec_u64Add, hu rfl]; rfl
  | u64Muln rd n => simp only [exec_u64Muln, hu rfl]; split <;> rfl
  | u64Ror rd bits => simp only [exec_u64Ror, hu rfl, ← hparams]; split_ifs <;> rfl
  | cdcS2w w o src count dst => simp only [exec_cdcS2w, hbmem rfl, hwmem rfl, ← hparams]; split_ifs <;> rfl
  | cdcW2s w o src count dst => simp only [exec_cdcW2s, hbmem rfl, hwmem rfl, ← hparams]; split_ifs <;> rfl
  | md5Init => rfl
  | md5Block widx =>
    simp only [exec_md5Block, hma rfl, hwmem rfl, ← hparams]
    generalize md5Compress _ _ = acc
    split <;> rfl
  | md5Out dst =>
    simp only [exec_md5Out, hma rfl, hbmem rfl, ← hparams]
    generalize md5Octets _ = octets
    split <;> rfl
  | md5Digest src len dst =>
    simp only [exec_md5Digest, hma rfl, hbmem rfl, ← hparams]
    generalize md5Digest _ = octets
    generalize md5DigestAcc _ = acc
    split_ifs <;> rfl
  | sha1Init => rfl
  | sha1Block widx =>
    simp only [exec_sha1Block, hsh rfl, hwmem rfl, ← hparams]
    generalize sha1Compress _ _ = acc
    split <;> rfl
  | sha1Out dst =>
    simp only [exec_sha1Out, hsh rfl, hbmem rfl, ← hparams]
    generalize sha1Octets _ = octets
    split <;> rfl
  | sha1Digest src len dst =>
    simp only [exec_sha1Digest, hsh rfl, hbmem rfl, ← hparams]
    generalize sha1Digest _ = octets
    generalize sha1DigestAcc _ = acc
    split_ifs <;> rfl
  | bmWr addr octet => simp only [exec_bmWr, hbmem rfl, ← hparams]; split_ifs <;> rfl
  | bmRd addr => simp only [exec_bmRd, hbmem rfl, ← hparams]; split <;> rfl
  | wmWr idx word => simp only [exec_wmWr, hwmem rfl, ← hparams]; split_ifs <;> rfl
  | wmRd idx => simp only [exec_wmRd, hwmem rfl, ← hparams]; split <;> rfl

theorem AgreeFor.refl (i : Instr) (s : State) : AgreeFor i s s :=
  ⟨rfl, fun _ => rfl, fun _ => rfl, fun _ => rfl, fun _ => rfl, fun _ => rfl⟩

/-- What a command leaves is its own overlay: it changes no piece of state it does not use. -/
theorem overlay_self {i : Instr} {s t : State} (hexec : exec i s = .next t) : overlay i s t = t := by
  have hoverlay := exec_overlay (.refl i s)
  rw [hexec, onNext_next] at hoverlay
  exact (Host.Outcome.next.inj hoverlay).symm

/-- If the two states look the same to the command and differ by `f`, so do the states it leaves. -/
theorem exec_next_of_agree {i : Instr} {s s' t : State} (f : State → State) (hexec : exec i s = .next t)
    (hagree : AgreeFor i s s') (hf : overlay i s' t = f (overlay i s t)) : exec i s' = .next (f t) := by
  rw [exec_overlay hagree, hexec, onNext_next, hf, overlay_self hexec]

/-! ### Who touches what -/

/-- Settles O10. -/
theorem onlyUi64CommandsTouchU : Obligations.OnlyUi64CommandsTouchU := fun i s _ v hu hexec =>
  exec_next_of_agree (fun x => { x with u := v }) hexec { AgreeFor.refl i s with u := by simp [hu] }
    (by simp [overlay, hu])

/-- Settles O11. -/
theorem onlyDigestCommandsTouchTheirAccumulators : Obligations.OnlyDigestCommandsTouchTheirAccumulators :=
  fun i s _ hexec =>
    ⟨fun hma v => exec_next_of_agree (fun x => { x with ma := v }) hexec { AgreeFor.refl i s with ma := by simp [hma] }
      (by simp [overlay, hma]),
    fun hsh v => exec_next_of_agree (fun x => { x with sh := v }) hexec { AgreeFor.refl i s with sh := by simp [hsh] }
      (by simp [overlay, hsh])⟩

/-- Settles O12. -/
theorem onlyListedCommandsTouchTheMemories : Obligations.OnlyListedCommandsTouchTheMemories := fun i s _ hexec =>
  ⟨fun hbmem v => exec_next_of_agree (fun x => { x with bmem := v }) hexec
    { AgreeFor.refl i s with bmem := by simp [hbmem] } (by simp [overlay, hbmem]),
  fun hwmem v => exec_next_of_agree (fun x => { x with wmem := v }) hexec
    { AgreeFor.refl i s with wmem := by simp [hwmem] } (by simp [overlay, hwmem])⟩

/-! ### A faulting packet leaves no trace -/

/-- No command reads the response port. -/
theorem exec_with_response (i : Instr) (s : State) (r : Option Response) :
    exec i { s with response := r } = exec i s := by
  obtain ⟨t, hexec, -⟩ := exec_effect i s
  rw [hexec]
  exact exec_next_of_agree id hexec { AgreeFor.refl i s with } rfl

/-- The next event is taken in the same way whatever response stands in the port. -/
theorem step_with_response {s : State} {e : HostEvent} {rest : List HostEvent} (hs : s.inbox = e :: rest)
    (r : Option Response) : step { s with response := r } = step s := by
  cases e with
  | reset v => rw [step_reset hs, step_reset (s := { s with response := r }) hs]; rfl
  | packet p =>
    cases hd : decode p with
    | ok i =>
      rw [step_of_decode_ok hd hs, step_of_decode_ok hd (s := { s with response := r }) hs]
      exact exec_with_response i { s with inbox := rest } r
    | error e =>
      have hno : ∀ i, decode p ≠ .ok i := by simp [hd]
      rw [step_of_decode_ne_ok hno s rest hs, step_of_decode_ne_ok hno { s with response := r } rest hs]

/-- Settles O7: by O6 the faulting packet changed the response port alone. -/
theorem faultingPacketLeavesNoTrace : Obligations.FaultingPacketLeavesNoTrace := by
  intro s t p e rest r hs hstep hr hfault
  rw [faultResponseChangesNothing s t p (e :: rest) r hs hstep hr hfault]
  exact step_with_response (s := { s with inbox := e :: rest }) rfl _

end Sys2Proof

/-! The encoding (spec/30_encoding.md R60 to R67): decoder and encoder are inverse to each other, because a command
word is made of its seven fields; the number of legal words; unused operands. -/

namespace Sys2Proof

open Machine

/-! ### The fields of an encoded word (R62) -/

section Fields

variable (op : BitVec 8) (rd rs : Reg) (wsz : BitVec 2) (be : BitVec 1) (imm7 : BitVec 7)

theorem fieldRd_commandWord : fieldRd (commandWord op rd rs wsz be imm7) = rd := by
  simp only [fieldRd, commandWord, BitVec.extractLsb'_append_eq_of_le, BitVec.extractLsb'_append_eq_right,
    Nat.reduceLeDiff, Nat.reduceSub]

theorem fieldRs_commandWord : fieldRs (commandWord op rd rs wsz be imm7) = rs := by
  simp only [fieldRs, commandWord, BitVec.extractLsb'_append_eq_of_le, BitVec.extractLsb'_append_eq_right,
    Nat.reduceLeDiff, Nat.reduceSub]

theorem fieldWsz_commandWord : fieldWsz (commandWord op rd rs wsz be imm7) = wsz := by
  simp only [fieldWsz, commandWord, BitVec.extractLsb'_append_eq_of_le, BitVec.extractLsb'_append_eq_right,
    Nat.reduceLeDiff, Nat.reduceSub]

theorem fieldBe_commandWord : fieldBe (commandWord op rd rs wsz be imm7) = be := by
  simp only [fieldBe, commandWord, BitVec.extractLsb'_append_eq_of_le, BitVec.extractLsb'_append_eq_right,
    Nat.reduceLeDiff, Nat.reduceSub]

theorem fieldImm7_commandWord : fieldImm7 (commandWord op rd rs wsz be imm7) = imm7.toNat := by
  simp only [fieldImm7, commandWord, BitVec.extractLsb'_append_eq_of_le, BitVec.extractLsb'_append_eq_right,
    Nat.reduceLeDiff, Nat.reduceSub]

end Fields

theorem widthOfCode_codeOfWidth (w : Width) : widthOfCode (codeOfWidth w) = w := by
  cases w <;> rfl

theorem orderOfBit_bitOfOrder (o : ByteOrder) : orderOfBit (bitOfOrder o) = o := by
  cases o <;> rfl

theorem codeOfWidth_widthOfCode (z : BitVec 2) : codeOfWidth (widthOfCode z) = z := by
  revert z
  decide

theorem bitOfOrder_orderOfBit (b : BitVec 1) : bitOfOrder (orderOfBit b) = b := by
  revert b
  decide

/-! ### Decoding an encoded instruction -/

/-- Every well-formed instruction has a row: its encoded word shows the row's match, and the row builds the
instruction back from its fields and operands. -/
theorem exists_row_of_wellFormed {i : Instr} (hi : i.wellFormed = true) :
    ∃ r ∈ opcodeRows, (encode i).cmd &&& r.mask = r.pattern ∧ r.build (encode i) = i := by
  cases i with
  | u64Ldn rd n =>
    exact ⟨opcodeRows[0], List.getElem_mem _, Laws.EncodedWord.u64Ldn rd n hi,
      congrArg (Instr.u64Ldn · n) (fieldRd_commandWord ..)⟩
  | u64Add rd rs =>
    exact ⟨opcodeRows[1], List.getElem_mem _, Laws.EncodedWord.u64Add rd rs hi,
      congrArg₂ Instr.u64Add (fieldRd_commandWord ..) (fieldRs_commandWord ..)⟩
  | u64Muln rd n =>
    exact ⟨opcodeRows[2], List.getElem_mem _, Laws.EncodedWord.u64Muln rd n hi,
      congrArg (Instr.u64Muln · n) (fieldRd_commandWord ..)⟩
  | u64Ror rd bits =>
    have hbits : bits < 128 := of_decide_eq_true hi
    have himm7 : fieldImm7 (encode (.u64Ror rd bits)).cmd = bits :=
      (fieldImm7_commandWord ..).trans (Nat.mod_eq_of_lt hbits)
    exact ⟨opcodeRows[3], List.getElem_mem _, Laws.EncodedWord.u64Ror rd bits hi,
      congrArg₂ Instr.u64Ror (fieldRd_commandWord ..) himm7⟩
  | cdcS2w w o src count dst =>
    refine ⟨opcodeRows[4], List.getElem_mem _, Laws.EncodedWord.cdcS2w w o src count dst hi, ?_⟩
    exact congrArg₂ (Instr.cdcS2w · · src count dst)
      ((congrArg widthOfCode (fieldWsz_commandWord ..)).trans (widthOfCode_codeOfWidth w))
      ((congrArg orderOfBit (fieldBe_commandWord ..)).trans (orderOfBit_bitOfOrder o))
  | cdcW2s w o src count dst =>
    refine ⟨opcodeRows[5], List.getElem_mem _, Laws.EncodedWord.cdcW2s w o src count dst hi, ?_⟩
    exact congrArg₂ (Instr.cdcW2s · · src count dst)
      ((congrArg widthOfCode (fieldWsz_commandWord ..)).trans (widthOfCode_codeOfWidth w))
      ((congrArg orderOfBit (fieldBe_commandWord ..)).trans (orderOfBit_bitOfOrder o))
  | md5Init => exact ⟨opcodeRows[6], List.getElem_mem _, Laws.EncodedWord.md5Init hi, rfl⟩
  | md5Block widx => exact ⟨opcodeRows[7], List.getElem_mem _, Laws.EncodedWord.md5Block widx hi, rfl⟩
  | md5Out dst => exact ⟨opcodeRows[8], List.getElem_mem _, Laws.EncodedWord.md5Out dst hi, rfl⟩
  | md5Digest src len dst => exact ⟨opcodeRows[9], List.getElem_mem _, Laws.EncodedWord.md5Digest src len dst hi, rfl⟩
  | sha1Init => exact ⟨opcodeRows[10], List.getElem_mem _, Laws.EncodedWord.sha1Init hi, rfl⟩
  | sha1Block widx => exact ⟨opcodeRows[11], List.getElem_mem _, Laws.EncodedWord.sha1Block widx hi, rfl⟩
  | sha1Out dst => exact ⟨opcodeRows[12], List.getElem_mem _, Laws.EncodedWord.sha1Out dst hi, rfl⟩
  | sha1Digest src len dst =>
    exact ⟨opcodeRows[13], List.getElem_mem _, Laws.EncodedWord.sha1Digest src len dst hi, rfl⟩
  | bmWr addr octet => exact ⟨opcodeRows[14], List.getElem_mem _, Laws.EncodedWord.bmWr addr octet hi, rfl⟩
  | bmRd addr => exact ⟨opcodeRows[15], List.getElem_mem _, Laws.EncodedWord.bmRd addr hi, rfl⟩
  | wmWr idx word => exact ⟨opcodeRows[16], List.getElem_mem _, Laws.EncodedWord.wmWr idx word hi, rfl⟩
  | wmRd idx => exact ⟨opcodeRows[17], List.getElem_mem _, Laws.EncodedWord.wmRd idx hi, rfl⟩

theorem decode_encode {i : Instr} (hi : i.wellFormed = true) : decode (encode i) = .ok i := by
  obtain ⟨r, hr, hword, hbuild⟩ := exists_row_of_wellFormed hi
  rw [(masked_eq_pattern_iff_decode hr _).mp hword, hbuild]

/-- Settles O15. -/
theorem decodeOfEncodeIsIdentity : Obligations.DecodeOfEncodeIsIdentity :=
  fun _ hi => decode_encode hi

/-! ### Encoding a decoded packet -/

/-- A word with no reserved bit is laid out of its own fields. -/
theorem commandWord_fields {c : BitVec 32} (hreserved : fieldReserved c = 0#10) :
    commandWord (fieldOp c) (fieldRd c) (fieldRs c) (fieldWsz c) (fieldBe c) (c.extractLsb' 15 7) = c := by
  rw [commandWord, ← hreserved]
  simp only [fieldOp, fieldRd, fieldRs, fieldWsz, fieldBe, fieldReserved, BitVec.ofFin_toFin,
    BitVec.extractLsb'_append_extractLsb'_eq_extractLsb']
  exact BitVec.extractLsb'_eq_self

theorem commandWord_eq_of_fields {c : BitVec 32} {op : BitVec 8} {rd rs : Reg} {wsz : BitVec 2} {be : BitVec 1}
    {imm7 : BitVec 7} (hreserved : fieldReserved c = 0#10) (hop : fieldOp c = op) (hrd : fieldRd c = rd)
    (hrs : fieldRs c = rs) (hwsz : fieldWsz c = wsz) (hbe : fieldBe c = be) (himm7 : c.extractLsb' 15 7 = imm7) :
    commandWord op rd rs wsz be imm7 = c := by
  subst hop hrd hrs hwsz hbe himm7
  exact commandWord_fields hreserved

/-- Bits under the mask are those of the match. -/
theorem extractLsb'_eq_of_masked {c mask pattern : BitVec 32} (h : c &&& mask = pattern) (start len : Nat)
    (hmask : mask.extractLsb' start len = BitVec.allOnes len) :
    c.extractLsb' start len = pattern.extractLsb' start len := by
  rw [← h, BitVec.extractLsb'_and, hmask, BitVec.and_allOnes]

/-- What a row builds from a word that shows its match fits its encoding, and is encoded as that word. -/
theorem encode_build_of_masked {r : OpcodeRow} (hr : r ∈ opcodeRows) {p : Packet}
    (h : p.cmd &&& r.mask = r.pattern) : (r.build p).wellFormed = true ∧ (encode (r.build p)).cmd = p.cmd := by
  have under := extractLsb'_eq_of_masked h
  have whole : r.mask = BitVec.allOnes 32 → p.cmd = r.pattern := fun hmask => by
    rwa [hmask, BitVec.and_allOnes] at h
  simp only [opcodeRows, opcodeRowsUi64, opcodeRowsCodec, opcodeRowsMd5, opcodeRowsSha1, opcodeRowsBuffer,
    List.cons_append, List.nil_append, List.mem_cons, List.not_mem_nil, or_false] at hr
  rcases hr with rfl | rfl | rfl | rfl | rfl | rfl | rfl | rfl | rfl | rfl | rfl | rfl | rfl | rfl | rfl | rfl |
    rfl | rfl
  · exact ⟨rfl, commandWord_eq_of_fields (under 22 10 rfl) (under 0 8 rfl) rfl
      (congrArg BitVec.toFin (under 10 2 rfl)) (under 12 2 rfl) (under 14 1 rfl) (under 15 7 rfl)⟩
  · exact ⟨rfl, commandWord_eq_of_fields (under 22 10 rfl) (under 0 8 rfl) rfl rfl (under 12 2 rfl) (under 14 1 rfl)
      (under 15 7 rfl)⟩
  · exact ⟨rfl, commandWord_eq_of_fields (under 22 10 rfl) (under 0 8 rfl) rfl
      (congrArg BitVec.toFin (under 10 2 rfl)) (under 12 2 rfl) (under 14 1 rfl) (under 15 7 rfl)⟩
  · have himm7 : p.cmd.extractLsb' 15 7 = BitVec.ofNat 7 (fieldImm7 p.cmd) :=
      ((BitVec.ofNat_toNat 7 _).trans (BitVec.setWidth_eq _)).symm
    exact ⟨decide_eq_true (BitVec.isLt (p.cmd.extractLsb' 15 7)), commandWord_eq_of_fields (under 22 10 rfl)
      (under 0 8 rfl) rfl (congrArg BitVec.toFin (under 10 2 rfl)) (under 12 2 rfl) (under 14 1 rfl) himm7⟩
  · exact ⟨rfl, commandWord_eq_of_fields (under 22 10 rfl) (under 0 8 rfl) (congrArg BitVec.toFin (under 8 2 rfl))
      (congrArg BitVec.toFin (under 10 2 rfl)) (codeOfWidth_widthOfCode _).symm (bitOfOrder_orderOfBit _).symm
      (under 15 7 rfl)⟩
  · exact ⟨rfl, commandWord_eq_of_fields (under 22 10 rfl) (under 0 8 rfl) (congrArg BitVec.toFin (under 8 2 rfl))
      (congrArg BitVec.toFin (under 10 2 rfl)) (codeOfWidth_widthOfCode _).symm (bitOfOrder_orderOfBit _).symm
      (under 15 7 rfl)⟩
  all_goals exact ⟨rfl, (whole rfl).symm⟩

theorem encode_of_decode {p : Packet} {i : Instr} (hd : decode p = .ok i) :
    i.wellFormed = true ∧ (encode i).cmd = p.cmd := by
  obtain ⟨r, hr, hselects, rfl⟩ := (decode_ok_iff_selects p i).mp hd
  exact encode_build_of_masked hr (eq_of_beq hselects)

/-- What a packet does depends on what it decodes to alone. -/
theorem sameEffect_of_decode_eq {p q : Packet} (h : decode p = decode q) : SameEffect p q := by
  intro s rest
  simp only [step, runPacket, h]

/-- Settles O16: both packets decode to the same instruction. -/
theorem encodeOfDecodeRestoresTheWord : Obligations.EncodeOfDecodeRestoresTheWord := by
  intro p i hd
  obtain ⟨hi, hcmd⟩ := encode_of_decode hd
  exact ⟨hi, hcmd, sameEffect_of_decode_eq ((decode_encode hi).trans hd.symm)⟩

/-- Settles O14. -/
theorem decodeOfWrittenWords : Obligations.DecodeOfWrittenWords := by
  unfold Obligations.DecodeOfWrittenWords
  decide

/-! ### Unused operands (R60, R65) -/

/-- The decoder looks at the command word to choose the row, and at the operands where that row builds with them. -/
theorem decode_eq_of_build_eq {p q : Packet} (hcmd : q.cmd = p.cmd)
    (hbuild : ∀ r ∈ opcodeRows, r.selects p.cmd = true → r.build p = r.build q) : decode p = decode q := by
  cases hfind : opcodeRows.find? (fun r => r.selects p.cmd) with
  | none => simp only [decode, hcmd, hfind]
  | some r =>
    have hselects : r.selects p.cmd = true := by simpa using List.find?_some hfind
    simp only [decode, hcmd, hfind, hbuild r (List.mem_of_find?_eq_some hfind) hselects]

/-- Every mask covers the opcode. -/
theorem masked_op_of_selects {r : OpcodeRow} (hr : r ∈ opcodeRows) {c : BitVec 32} (h : r.selects c = true) :
    c &&& 0xFF#32 = r.pattern &&& 0xFF#32 := by
  have hmask : ∀ r ∈ opcodeRows, r.mask &&& 0xFF#32 = 0xFF#32 := by decide
  rw [← eq_of_beq h, BitVec.and_assoc, hmask r hr]

theorem sameEffect_of_op {ops : List (BitVec 32)} {p q : Packet} (hcmd : q.cmd = p.cmd)
    (hbuild : ∀ r ∈ opcodeRows, r.pattern &&& 0xFF#32 ∈ ops → r.build p = r.build q)
    (hop : p.cmd &&& 0xFF#32 ∈ ops) : SameEffect p q :=
  sameEffect_of_decode_eq <| decode_eq_of_build_eq hcmd fun r hr hselects =>
    hbuild r hr (masked_op_of_selects hr hselects ▸ hop)

/-- Settles O18: no row of the listed opcodes builds with the operands that may differ. -/
theorem unusedOperandsHaveNoEffect : Obligations.UnusedOperandsHaveNoEffect := by
  intro p a b c
  refine ⟨sameEffect_of_op rfl ?_, sameEffect_of_op rfl ?_, sameEffect_of_op rfl ?_⟩ <;>
    simp [opcodeRows, opcodeRowsUi64, opcodeRowsCodec, opcodeRowsMd5, opcodeRowsSha1, opcodeRowsBuffer]

/-! ### The legal words (95_test_vectors.md V7) -/

/-- The words that differ from `c` in the bits `ks` alone, where `c` has zeros. -/
def wordsWithFreeBits : List Nat → BitVec 32 → List (BitVec 32)
  | [], c => [c]
  | k :: ks, c => wordsWithFreeBits ks c ++ wordsWithFreeBits ks (c ||| BitVec.twoPow 32 k)

theorem length_wordsWithFreeBits (ks : List Nat) (c : BitVec 32) :
    (wordsWithFreeBits ks c).length = 2 ^ ks.length := by
  induction ks generalizing c with
  | nil => rfl
  | cons k ks ih => rw [wordsWithFreeBits, List.length_append, ih, ih, List.length_cons, pow_succ, Nat.mul_two]

/-- The bits that may be free in a word. -/
def FreeBits (ks : List Nat) (c : BitVec 32) : Prop :=
  ks.Nodup ∧ ∀ k ∈ ks, k < 32 ∧ c.getLsbD k = false

theorem FreeBits.tail {k : Nat} {ks : List Nat} {c : BitVec 32} (h : FreeBits (k :: ks) c) : FreeBits ks c :=
  ⟨(List.nodup_cons.mp h.1).2, fun j hj => h.2 j (List.mem_cons_of_mem k hj)⟩

theorem getLsbD_or_twoPow {c : BitVec 32} {k j : Nat} (hk : k < 32) :
    (c ||| BitVec.twoPow 32 k).getLsbD j = (c.getLsbD j || decide (k = j)) := by
  simp [hk]

/-- Setting the first free bit leaves the others free. -/
theorem FreeBits.tail_set {k : Nat} {ks : List Nat} {c : BitVec 32} (h : FreeBits (k :: ks) c) :
    FreeBits ks (c ||| BitVec.twoPow 32 k) := by
  obtain ⟨hk, -⟩ := h.2 k List.mem_cons_self
  refine ⟨h.tail.1, fun j hj => ⟨(h.tail.2 j hj).1, ?_⟩⟩
  have hne : k ≠ j := fun e => (List.nodup_cons.mp h.1).1 (e ▸ hj)
  rw [getLsbD_or_twoPow hk, (h.tail.2 j hj).2, decide_eq_false hne, Bool.or_false]

theorem mem_wordsWithFreeBits {ks : List Nat} {c : BitVec 32} (h : FreeBits ks c) (d : BitVec 32) :
    d ∈ wordsWithFreeBits ks c ↔ ∀ j < 32, j ∉ ks → d.getLsbD j = c.getLsbD j := by
  induction ks generalizing c with
  | nil =>
    simp only [wordsWithFreeBits, List.mem_singleton, List.not_mem_nil, not_false_eq_true, forall_const]
    exact ⟨fun e _ _ => e ▸ rfl, fun hbits => BitVec.eq_of_getLsbD_eq hbits⟩
  | cons k ks ih =>
    obtain ⟨hk, hzero⟩ := h.2 k List.mem_cons_self
    rw [wordsWithFreeBits, List.mem_append, ih h.tail, ih h.tail_set]
    simp only [getLsbD_or_twoPow hk, List.mem_cons, not_or]
    constructor
    · rintro (hd | hd) j hj ⟨hjk, hjks⟩
      · exact hd j hj hjks
      · simpa [Ne.symm hjk] using hd j hj hjks
    · intro hd
      cases hbit : d.getLsbD k
      · left
        intro j hj hjks
        by_cases hjk : j = k
        · rw [hjk, hbit, hzero]
        · exact hd j hj ⟨hjk, hjks⟩
      · right
        intro j hj hjks
        by_cases hjk : j = k
        · simp [hjk, hbit]
        · simpa [Ne.symm hjk] using hd j hj ⟨hjk, hjks⟩

theorem nodup_wordsWithFreeBits {ks : List Nat} {c : BitVec 32} (h : FreeBits ks c) :
    (wordsWithFreeBits ks c).Nodup := by
  induction ks generalizing c with
  | nil => exact List.nodup_singleton c
  | cons k ks ih =>
    obtain ⟨hk, hzero⟩ := h.2 k List.mem_cons_self
    have hks : k ∉ ks := (List.nodup_cons.mp h.1).1
    refine (ih h.tail).append (ih h.tail_set) fun d hd hd' => ?_
    have hunset := (mem_wordsWithFreeBits h.tail d).mp hd k hk hks
    have hset := (mem_wordsWithFreeBits h.tail_set d).mp hd' k hk hks
    rw [hunset, getLsbD_or_twoPow hk, hzero, decide_eq_true rfl] at hset
    exact Bool.noConfusion hset

/-- The bits a row leaves open. -/
def OpcodeRow.freeBits (r : OpcodeRow) : List Nat := (List.range 32).filter fun k => !r.mask.getLsbD k

/-- The words that select a row. -/
def OpcodeRow.words (r : OpcodeRow) : List (BitVec 32) := wordsWithFreeBits r.freeBits r.pattern

theorem freeBits_of_mem {r : OpcodeRow} (hr : r ∈ opcodeRows) : FreeBits r.freeBits r.pattern := by
  refine ⟨List.nodup_range.filter _, fun k hk => ?_⟩
  obtain ⟨hrange, hopen⟩ := List.mem_filter.mp hk
  refine ⟨List.mem_range.mp hrange, ?_⟩
  have hmask : r.mask.getLsbD k = false := by simpa using hopen
  rw [← opcodeRows_pattern_masked r hr, BitVec.getLsbD_and, hmask, Bool.and_false]

theorem mem_words_iff {r : OpcodeRow} (hr : r ∈ opcodeRows) (c : BitVec 32) : c ∈ r.words ↔ r.selects c = true := by
  rw [OpcodeRow.words, mem_wordsWithFreeBits (freeBits_of_mem hr), OpcodeRow.selects, beq_iff_eq,
    ← opcodeRows_pattern_masked r hr]
  simp only [OpcodeRow.freeBits, List.mem_filter, List.mem_range, not_and, BitVec.getLsbD_and]
  constructor
  · intro hbits
    refine BitVec.eq_of_getLsbD_eq fun j hj => ?_
    cases hmask : r.mask.getLsbD j
    · simp [hmask]
    · have := hbits j hj fun _ => by simp [hmask]
      simp [hmask, this]
  · intro hmasked j hj hfixed
    have hmask : r.mask.getLsbD j = true := by simpa using hfixed hj
    have := congrArg (·.getLsbD j) hmasked
    simpa [hmask] using this

/-- No word selects two rows. -/
theorem nodup_flatMap_words : (opcodeRows.flatMap OpcodeRow.words).Nodup := by
  refine List.nodup_flatMap.mpr ⟨fun r hr => nodup_wordsWithFreeBits (freeBits_of_mem hr), ?_⟩
  refine opcodeRows_disjoint.imp_of_mem fun {r q} hr hq hne c hcr hcq => ?_
  have hfr := selects_unique opcodeRows opcodeRows_disjoint c r hr ((mem_words_iff hr c).mp hcr)
  have hfq := selects_unique opcodeRows opcodeRows_disjoint c q hq ((mem_words_iff hq c).mp hcq)
  obtain rfl : r = q := Option.some.inj (hfr.symm.trans hfq)
  exact hne rfl

/-- Settles O17: the words of the 18 rows, `2 ^ n` for a row that leaves `n` bits open. -/
theorem legalCommandWordsNumber564 : Obligations.LegalCommandWordsNumber564 := by
  refine ⟨opcodeRows.flatMap OpcodeRow.words, nodup_flatMap_words, ?_, fun c => ?_⟩
  · simp only [List.length_flatMap, OpcodeRow.words, length_wordsWithFreeBits]
    decide
  · simp only [List.mem_flatMap, decode_ok_iff_selects]
    constructor
    · rintro ⟨r, hr, hc⟩
      exact ⟨_, r, hr, (mem_words_iff hr c).mp hc, rfl⟩
    · rintro ⟨-, r, hr, hc, -⟩
      exact ⟨r, hr, (mem_words_iff hr c).mpr hc⟩

end Sys2Proof

/-! The FixedWidthInteger commands (spec/40_ui64.md R81 to R87): the results of the UI64 functions as what the
commands leave, the rotate under all settings of its two parameters, and the sequences of rotates. -/

namespace Sys2Proof

open Machine

/-! ### Load, add, scale (R81, R83, R85) -/

/-- A result and its carry-out are remainder and quotient of the exact value. -/
theorem carryOut_eq_div {z : Ui64} {c total : Nat} (h : val z + c * 2 ^ 64 = total) : c = total / 2 ^ 64 := by
  have := val_lt z
  omega

/-- Settles O22. -/
theorem ldnLoadsTheOperand : Obligations.LdnLoadsTheOperand := fun rd n s =>
  ⟨_, exec_u64Ldn s rd n, (val_fromNumber n.toNat).trans (Nat.mod_eq_of_lt n.isLt)⟩

/-- Settles O23: `RES` holds the whole carry-out, which is at most 1. -/
theorem addReturnsSumAndCarry : Obligations.AddReturnsSumAndCarry := by
  intro rd rs s
  have hexact := val_ui64Add_add_carryOut s.u[rd] s.u[rs]
  have hcarry : (ui64Add s.u[rd] s.u[rs]).2 < 2 ^ 64 := (addCarry_le_one _ _ 8).trans_lt (by decide)
  refine ⟨_, _, exec_u64Add s rd rs, val_eq_mod hexact, ?_⟩
  rw [BitVec.toNat_ofNat, Nat.mod_eq_of_lt hcarry, carryOut_eq_div hexact]

/-- Settles O24: the carry-out is at most the scalar. -/
theorem mulnScalesOrRefusesWideScalar : Obligations.MulnScalesOrRefusesWideScalar := by
  intro rd n s
  rw [exec_u64Muln]
  refine ⟨fun hn => ?_, fun hn => if_neg (Nat.not_lt.mpr hn)⟩
  have hexact := val_ui64MulN_add_carryOut s.u[rd] n.toNat
  have hcarry : (ui64MulN s.u[rd] n.toNat).2 < 2 ^ 32 := (mulCarry_le _ _ 8).trans_lt hn
  have hres : (BitVec.ofNat 64 (ui64MulN s.u[rd] n.toNat).2).toNat = (ui64MulN s.u[rd] n.toNat).2 :=
    Nat.mod_eq_of_lt (hcarry.trans (by decide))
  refine ⟨_, _, if_pos hn, val_eq_mod hexact, ?_, ?_⟩
  · rw [hres, carryOut_eq_div hexact]
  · rwa [hres]

/-! ### The rotate (R86; 93_implementation_defined.md U7) -/

theorem rotatedDigit_lt (fill : RorFill) (x : Ui64) (k i : Nat) : rotatedDigit fill x k i < 256 := by
  cases fill with
  | rotate => exact digit_lt x _
  | zero =>
    rw [rotatedDigit]
    split
    · exact digit_lt x _
    · decide

theorem digit_ui64Ror (params : Params) (x : Ui64) (bits : Nat) {i : Nat} (hi : i < 8) :
    digit (ui64Ror params x bits).1 i = rotatedDigit params.rorFill x (bits / 8) i := by
  rw [ui64Ror, digit_ofFn _ i hi, BitVec.toNat_ofNat, Nat.mod_eq_of_lt (rotatedDigit_lt ..)]

/-- The digits from place `k` on, as a number. -/
def digitSumFrom (x : Ui64) (k m : Nat) : Nat := ∑ i ∈ Finset.range m, digit x (k + i) * 256 ^ i

theorem digitSum_add (x : Ui64) (k m : Nat) : digitSum x (k + m) = digitSum x k + 256 ^ k * digitSumFrom x k m := by
  rw [digitSum_eq_sum, digitSum_eq_sum, digitSumFrom, Finset.sum_range_add, Finset.mul_sum]
  congr 1
  exact Finset.sum_congr rfl fun i _ => by ring

theorem digitSum_eq_val_mod (x : Ui64) {k : Nat} (hk : k ≤ 8) : digitSum x k = val x % 256 ^ k := by
  have hsplit := digitSum_add x k (8 - k)
  rw [Nat.add_sub_cancel' hk] at hsplit
  rw [val, hsplit, Nat.add_mul_mod_self_left, Nat.mod_eq_of_lt (digitSum_lt x k)]

theorem digitSumFrom_eq_val_div (x : Ui64) {k : Nat} (hk : k ≤ 8) : digitSumFrom x k (8 - k) = val x / 256 ^ k := by
  have hsplit := digitSum_add x k (8 - k)
  rw [Nat.add_sub_cancel' hk] at hsplit
  rw [val, hsplit, Nat.add_mul_div_left _ _ (by positivity), Nat.div_eq_of_lt (digitSum_lt x k), Nat.zero_add]

/-- What stays of a register when `k` digits leave at the bottom. -/
theorem digitSum_of_shifted {x y : Ui64} {k : Nat} (hk : k ≤ 8) (h : ∀ i < 8 - k, digit y i = digit x (i + k)) :
    digitSum y (8 - k) = val x / 256 ^ k := by
  rw [← digitSumFrom_eq_val_div x hk, digitSum_eq_sum, digitSumFrom]
  refine Finset.sum_congr rfl fun i hi => ?_
  rw [h i (Finset.mem_range.mp hi), Nat.add_comm]

theorem val_of_rotated {x y : Ui64} {k : Nat} (hk : k ≤ 8) (h : ∀ i < 8, digit y i = digit x ((i + k) % 8)) :
    val y = val x / 256 ^ k + val x % 256 ^ k * 256 ^ (8 - k) := by
  have hstay : digitSum y (8 - k) = val x / 256 ^ k := digitSum_of_shifted hk fun i hi => by
    rw [h i (by omega), Nat.mod_eq_of_lt (by omega)]
  have hback : digitSumFrom y (8 - k) k = digitSum x k := by
    rw [digitSumFrom, digitSum_eq_sum]
    refine Finset.sum_congr rfl fun i hi => ?_
    have hi : i < k := Finset.mem_range.mp hi
    have hplace : (8 - k + i + k) % 8 = i := by omega
    rw [h _ (by omega), hplace]
  have hsplit := digitSum_add y (8 - k) k
  rw [Nat.sub_add_cancel hk, hstay, hback, digitSum_eq_val_mod x hk] at hsplit
  rw [val, hsplit, Nat.mul_comm]

theorem val_of_shifted {x y : Ui64} {k : Nat} (hk : k ≤ 8)
    (h : ∀ i < 8, digit y i = if i + k ≤ 7 then digit x (i + k) else 0) : val y = val x / 256 ^ k := by
  have hstay : digitSum y (8 - k) = val x / 256 ^ k := digitSum_of_shifted hk fun i hi => by
    rw [h i (by omega), if_pos (by omega)]
  have hback : digitSumFrom y (8 - k) k = 0 := Finset.sum_eq_zero fun i hi => by
    have hi : i < k := Finset.mem_range.mp hi
    rw [h _ (by omega), if_neg (by omega), Nat.zero_mul]
  have hsplit := digitSum_add y (8 - k) k
  rwa [Nat.sub_add_cancel hk, hback, hstay, Nat.mul_zero, Nat.add_zero] at hsplit

theorem digitSumHigh_eq_sum (x : Ui64) (k : Nat) :
    digitSumHigh x k = ((List.range k).map fun j => digit x j * 256 ^ (k - 1 - j)).sum := by
  induction k with
  | zero => rfl
  | succ k ih =>
    have hplace : ∀ j ∈ List.range k, digit x j * 256 ^ (k + 1 - 1 - j) = digit x j * 256 ^ (k - 1 - j) * 256 :=
      fun j hj => by
        have hj : j < k := List.mem_range.mp hj
        rw [show k + 1 - 1 - j = k - 1 - j + 1 by omega, pow_succ, mul_assoc]
    rw [digitSumHigh_succ, ih, List.range_succ, List.map_append, List.sum_append, List.map_congr_left hplace,
      List.sum_map_mul_right]
    simp

theorem digitSumHigh_lt (x : Ui64) (k : Nat) : digitSumHigh x k < 256 ^ k := by
  induction k with
  | zero => simp
  | succ k ih =>
    have := digit_lt x k
    rw [digitSumHigh_succ, pow_succ]
    omega

/-- `RES` holds every digit that leaves. -/
theorem rotatedOut_lt (order : RorOrder) (x : Ui64) {k : Nat} (hk : k ≤ 8) : rotatedOut order x k < 2 ^ 64 := by
  have hpow : 256 ^ k ≤ 256 ^ 8 := Nat.pow_le_pow_right (by decide) hk
  cases order with
  | firstOutLow => exact (digitSum_lt x k).trans_le hpow
  | firstOutHigh => exact (digitSumHigh_lt x k).trans_le hpow

/-- The response of a rotate by `k` digits. -/
theorem toNat_ofNat_ui64Ror_out (params : Params) (x : Ui64) {k : Nat} (hk : k ≤ 8) :
    (BitVec.ofNat 64 (ui64Ror params x (8 * k)).2).toNat = rotatedOut params.rorOrder x k := by
  rw [BitVec.toNat_ofNat, ui64Ror, Nat.mul_div_cancel_left k (by decide), Nat.mod_eq_of_lt (rotatedOut_lt _ _ hk)]

/-- Settles O25: the amount is `8 * k` with `k` digits moved, and every power of two in the statement one of 256. -/
theorem rorRotatesWholeDigitsOrRefuses : Obligations.RorRotatesWholeDigitsOrRefuses := by
  intro rd bits s
  rw [exec_u64Ror]
  refine ⟨fun hwhole hreach => ?_, fun hbits => if_neg hbits,
    fun hwhole hfar => (if_pos hwhole).trans (if_neg (Nat.not_le.mpr hfar))⟩
  obtain ⟨k, rfl⟩ : ∃ k, bits = 8 * k := ⟨bits / 8, by omega⟩
  have hk : k ≤ 8 := by omega
  have hdiv : 8 * k / 8 = k := Nat.mul_div_cancel_left k (by decide)
  have hpow : 2 ^ (8 * k) = 256 ^ k := pow_mul 2 8 k
  have hpow' : 2 ^ (64 - 8 * k) = 256 ^ (8 - k) := two_pow_eight_mul_sub 8 k
  have hdigit := fun i (hi : i < 8) => digit_ui64Ror s.params s.u[rd] (8 * k) hi
  have hres := toNat_ofNat_ui64Ror_out s.params s.u[rd] hk
  rw [hdiv] at hdigit ⊢
  rw [hpow, hpow']
  refine ⟨_, _, (if_pos hwhole).trans (if_pos hreach), fun hfill => ?_, fun hfill => ?_, fun horder => ?_,
    fun horder => ?_⟩
  · rw [hfill] at hdigit
    exact ⟨hdigit, val_of_rotated hk hdigit⟩
  · rw [hfill] at hdigit
    exact val_of_shifted hk hdigit
  · rw [hres, horder]
    exact digitSum_eq_val_mod _ hk
  · rw [hres, horder]
    exact digitSumHigh_eq_sum _ k

/-! ### Sequences of rotates (R87; 30_encoding.md R72) -/

theorem execAll_singleton (i : Instr) (s : State) : execAll [i] s = exec i s := by
  obtain ⟨t, hexec, -⟩ := exec_effect i s
  simp only [execAll, hexec]

theorem execAll_cons {i : Instr} {s t : State} (hexec : exec i s = .next t) (l : List Instr) :
    execAll (i :: l) s = execAll l t := by
  simp only [execAll, hexec]

/-- A rotate by 64 bits with rotate fill puts every digit back. -/
theorem ui64Ror_64 {params : Params} (hfill : params.rorFill = .rotate) (x : Ui64) : (ui64Ror params x 64).1 = x := by
  refine ui64_ext _ _ fun i hi => ?_
  rw [digit_ui64Ror params x 64 hi, hfill, rotatedDigit, Nat.add_mod_right, Nat.mod_eq_of_lt hi]

/-- Settles O26. -/
theorem rdvReadsTheRegister : Obligations.RdvReadsTheRegister := by
  intro rd s ⟨hfill, horder⟩
  have hout : (ui64Ror s.params s.u[rd] 64).2 = val s.u[rd] := by
    rw [ui64Ror, horder]
    rfl
  rw [pseudoRdv, execAll_singleton, exec_u64Ror, if_pos (by decide), if_pos (by decide), ui64Ror_64 hfill, hout]
  simp

/-- `U[rd]` after one rotate by a single digit. -/
def rorDigit (params : Params) (x : Ui64) : Ui64 := (ui64Ror params x 8).1

/-- `n` rotates by one digit bring each digit where one rotate by `n` digits does. -/
theorem digit_iterate_rorDigit (params : Params) (x : Ui64) (n : Nat) {i : Nat} (hi : i < 8) :
    digit ((rorDigit params)^[n] x) i = rotatedDigit params.rorFill x n i := by
  induction n generalizing i with
  | zero => cases hfill : params.rorFill <;> simp [rotatedDigit, Nat.mod_eq_of_lt hi, Nat.le_of_lt_succ hi]
  | succ n ih =>
    rw [Function.iterate_succ_apply', rorDigit, digit_ui64Ror params _ 8 hi]
    cases hfill : params.rorFill with
    | rotate =>
      have hplace : ((i + 8 / 8) % 8 + n) % 8 = (i + (n + 1)) % 8 := by omega
      rw [rotatedDigit, ih (Nat.mod_lt _ (by decide)), hfill, rotatedDigit, hplace, rotatedDigit]
    | zero =>
      rw [rotatedDigit, rotatedDigit]
      by_cases hlast : i + 1 ≤ 7
      · rw [if_pos hlast, ih (by omega), hfill, rotatedDigit, Nat.add_right_comm, Nat.add_assoc]
      · rw [if_neg hlast, if_neg (by omega)]

/-- The digit that leaves is the lowest, under either order. -/
theorem rotatedOut_one (order : RorOrder) (x : Ui64) : rotatedOut order x 1 = digit x 0 := by
  cases order <;> simp [rotatedOut]

theorem exec_u64Ror_8 (rd : Reg) (s : State) :
    exec (.u64Ror rd 8) s =
      .next { s with u := s.u.set rd (rorDigit s.params s.u[rd]),
                     response := some ⟨.ok, BitVec.ofNat 64 (digit s.u[rd] 0)⟩ } := by
  rw [exec_u64Ror, if_pos (by decide), if_pos (by decide), ← rotatedOut_one s.params.rorOrder]
  rfl

/-- `n + 1` rotates by one digit: the response is the digit the last one turned out. -/
theorem execAll_replicate_u64Ror_8 (rd : Reg) (n : Nat) (s : State) :
    execAll (List.replicate (n + 1) (.u64Ror rd 8)) s =
      .next { s with u := s.u.set rd ((rorDigit s.params)^[n + 1] s.u[rd]),
                     response := some ⟨.ok, BitVec.ofNat 64 (digit ((rorDigit s.params)^[n] s.u[rd]) 0)⟩ } := by
  induction n generalizing s with
  | zero => exact (execAll_singleton _ s).trans (exec_u64Ror_8 rd s)
  | succ n ih =>
    rw [List.replicate_succ, execAll_cons (exec_u64Ror_8 rd s), ih]
    simp [Function.iterate_succ_apply]

/-- Settles O27: the rotates of a register are those of its digits, `digit_iterate_rorDigit`. -/
theorem eightRotationsReturnTheDigits : Obligations.EightRotationsReturnTheDigits := by
  intro rd s k hk
  have hout : digit ((rorDigit s.params)^[k] s.u[rd]) 0 = digit s.u[rd] k := by
    rw [digit_iterate_rorDigit _ _ _ (by decide)]
    cases s.params.rorFill <;> simp [rotatedDigit, Nat.mod_eq_of_lt hk, Nat.le_of_lt_succ hk]
  refine ⟨_, execAll_replicate_u64Ror_8 rd k s, by rw [hout], ?_, ?_⟩
  · rintro rfl hfill
    have hback : (rorDigit s.params)^[8] s.u[rd] = s.u[rd] := ui64_ext _ _ fun i hi => by
      rw [digit_iterate_rorDigit _ _ _ hi, hfill, rotatedDigit, Nat.add_mod_right, Nat.mod_eq_of_lt hi]
    simp only [hback]
    simp
  · rintro rfl hfill
    have hzero : val ((rorDigit s.params)^[8] s.u[rd]) = val s.u[rd] / 256 ^ 8 := val_of_shifted le_rfl fun i hi => by
      rw [digit_iterate_rorDigit _ _ _ hi, hfill, rotatedDigit]
    have hset : (s.u.set rd ((rorDigit s.params)^[8] s.u[rd]))[rd] = (rorDigit s.params)^[8] s.u[rd] :=
      Vector.getElem_set_self _
    exact (congrArg val hset).trans (hzero.trans (Nat.div_eq_of_lt (val_lt _)))

end Sys2Proof

/-! The commands that load and store (spec/45_buffer_access.md R190 to R193; spec/42_codec.md R114, R115;
spec/30_encoding.md R72): the cells of a range after a write, and every cell outside it. -/

namespace Sys2Proof

open Machine

/-! ### A written range (20_memory.md R48) -/

section Ranges

variable {w : Nat} {m : Memory w} (hm : m.wf) (a : Nat)

include hm

theorem getElem?_eq_read_writeRange (vs : List (BitVec w)) {j : Nat} (hj : j < vs.length) :
    vs[j]? = some ((m.writeRange a vs).read (a + j)) := by
  rw [Memory.read_writeRange vs m hm, if_pos (Nat.le_add_right a j), Nat.add_sub_cancel_left,
    List.getElem?_eq_getElem hj, Option.getD_some]

theorem read_writeRange_outside (vs : List (BitVec w)) {b : Nat} (hb : b < a ∨ a + vs.length ≤ b) :
    (m.writeRange a vs).read b = m.read b := by
  rw [Memory.read_writeRange vs m hm]
  split
  · rw [List.getElem?_eq_none (by omega), Option.getD_none]
  · rfl

/-- What a command leaves that writes `n` cells from `a` on. -/
theorem read_writeRange_of_length {vs : List (BitVec w)} {n : Nat} (hn : vs.length = n) :
    (∀ j < n, some ((m.writeRange a vs).read (a + j)) = vs[j]?) ∧
    ∀ b, b < a ∨ a + n ≤ b → (m.writeRange a vs).read b = m.read b :=
  ⟨fun _ hj => (getElem?_eq_read_writeRange hm a vs (hn ▸ hj)).symm,
    fun _ hb => read_writeRange_outside hm a vs (hn ▸ hb)⟩

theorem read_writeRange_singleton (v : BitVec w) : (m.writeRange a [v]).read a = v :=
  (Option.some.inj (getElem?_eq_read_writeRange hm a [v] (j := 0) (by simp))).symm

theorem read_writeRange_singleton_ne (v : BitVec w) {b : Nat} (hb : b ≠ a) :
    (m.writeRange a [v]).read b = m.read b :=
  read_writeRange_outside hm a [v] (by simp; omega)

end Ranges

/-- A cell that is read is the one the list of the range holds; past the range there is none. -/
theorem getD_readRange {w : Nat} (m : Memory w) (a n j : Nat) :
    (m.readRange a n)[j]?.getD 0#w = if j < n then m.read (a + j) else 0#w := by
  split
  · next hj => rw [Memory.getElem?_readRange m a n j hj, Option.getD_some]
  · next hj => rw [List.getElem?_eq_none (by simpa using hj), Option.getD_none]

/-- The cells of a range are the only list of that length that holds them. -/
theorem eq_readRange_of_getElem? {w : Nat} {m : Memory w} {a n : Nat} {l : List (BitVec w)} (hl : l.length = n)
    (h : ∀ j < n, l[j]? = some (m.read (a + j))) : l = m.readRange a n := by
  refine List.ext_getElem? fun j => ?_
  by_cases hj : j < n
  · rw [h j hj, Memory.getElem?_readRange m a n j hj]
  · rw [List.getElem?_eq_none (by omega), List.getElem?_eq_none (by simpa using hj)]

/-! ### Buffer access (R190 to R193) -/

/-- A cell narrower than `RES` is returned whole. -/
theorem toNat_ofNat_toNat_of_le {w : Nat} (hw : w ≤ 64) (v : BitVec w) : (BitVec.ofNat 64 v.toNat).toNat = v.toNat :=
  Nat.mod_eq_of_lt (v.isLt.trans_le (Nat.pow_le_pow_right (by decide) hw))

/-- Settles O56. -/
theorem bmWrWritesOneOctet : Obligations.BmWrWritesOneOctet := by
  intro addr octet s hm
  rw [exec_bmWr]
  refine ⟨fun hoctet haddr => ?_, fun hwide => if_neg (Nat.not_lt.mpr hwide), fun hoctet haddr => ?_⟩
  · refine ⟨_, (if_pos hoctet).trans (if_pos haddr), ?_, fun a ha => read_writeRange_singleton_ne hm _ _ ha⟩
    rw [read_writeRange_singleton hm, operandOctet, BitVec.toNat_ofNat, Nat.mod_eq_of_lt hoctet]
  · exact (if_pos hoctet).trans (if_neg (Nat.not_lt.mpr haddr))

/-- Settles O57. -/
theorem bmRdReturnsTheOctet : Obligations.BmRdReturnsTheOctet := by
  intro addr s
  rw [exec_bmRd]
  exact ⟨fun haddr => ⟨_, if_pos haddr, toNat_ofNat_toNat_of_le (by decide) _⟩,
    fun haddr => if_neg (Nat.not_lt.mpr haddr)⟩

/-- Settles O58. -/
theorem wmWrWritesOneCell : Obligations.WmWrWritesOneCell := by
  intro idx word s hm
  rw [exec_wmWr]
  refine ⟨fun hword hidx => ?_, fun hwide => if_neg (Nat.not_lt.mpr hwide), fun hword hidx => ?_⟩
  · refine ⟨_, (if_pos hword).trans (if_pos hidx), ?_, fun a ha => read_writeRange_singleton_ne hm _ _ ha⟩
    rw [read_writeRange_singleton hm, operandWord, BitVec.toNat_ofNat, Nat.mod_eq_of_lt hword]
  · exact (if_pos hword).trans (if_neg (Nat.not_lt.mpr hidx))

/-- Settles O59. -/
theorem wmRdReturnsTheCell : Obligations.WmRdReturnsTheCell := by
  intro idx s
  rw [exec_wmRd]
  exact ⟨fun hidx => ⟨_, if_pos hidx, toNat_ofNat_toNat_of_le (by decide) _⟩,
    fun hidx => if_neg (Nat.not_lt.mpr hidx)⟩

/-! ### `BM.WRS` (30_encoding.md R72) -/

/-- One packet of the string: an octet always fits its operand. -/
theorem exec_bmWr_octet {a : Nat} {s : State} (ha : a < s.params.bmemBytes) (hsize : s.params.bmemBytes < 2 ^ 32)
    (o : Octet) :
    exec (.bmWr (BitVec.ofNat 64 a) (BitVec.ofNat 64 o.toNat)) s =
      .next { s with bmem := s.bmem.writeRange a [o], response := some ⟨.ok, 0#64⟩ } := by
  have haddr : (BitVec.ofNat 64 a).toNat = a := Nat.mod_eq_of_lt (ha.trans (hsize.trans (by decide)))
  have hoctet : (BitVec.ofNat 64 o.toNat).toNat = o.toNat := toNat_ofNat_toNat_of_le (by decide) o
  have hback : operandOctet (BitVec.ofNat 64 o.toNat) = o := by
    rw [operandOctet, hoctet]
    simp
  rw [exec_bmWr, haddr, hoctet, hback, if_pos o.isLt, if_pos (Nat.succ_le_of_lt ha)]

/-- The packets of a non-empty string write it as one range. -/
theorem execAll_pseudoWrs (o : Octet) (octets : List Octet) {a : Nat} {s : State}
    (hsize : s.params.bmemBytes < 2 ^ 32) (hrange : a + (o :: octets).length ≤ s.params.bmemBytes) :
    execAll (pseudoWrs a (o :: octets)) s =
      .next { s with bmem := s.bmem.writeRange a (o :: octets), response := some ⟨.ok, 0#64⟩ } := by
  induction octets generalizing o a s with
  | nil =>
    rw [List.length_singleton] at hrange
    exact execAll_cons (exec_bmWr_octet hrange hsize o) _
  | cons o' octets ih =>
    rw [List.length_cons] at hrange
    have hrest : a + 1 + (o' :: octets).length ≤ s.params.bmemBytes := by omega
    exact (execAll_cons (exec_bmWr_octet (by omega) hsize o) _).trans (ih o' hsize hrest)

/-- Settles O60. -/
theorem wrsWritesTheString : Obligations.WrsWritesTheString := by
  intro addr octets s hinv hne hrange
  obtain ⟨o, l, rfl⟩ := List.exists_cons_of_ne_nil hne
  obtain ⟨-, hsize, -, -⟩ := hinv.params_ok
  exact ⟨_, execAll_pseudoWrs o l hsize hrange, read_writeRange_of_length hinv.bmem_canonical addr rfl⟩

/-! ### The codec commands (R114, R115) -/

theorem ceilDiv_le (n : Nat) (w : Width) : ceilDiv n (octetsPerWord w) ≤ n := by
  cases w <;> simp only [ceilDiv, octetsPerWord] <;> omega

/-- Settles O35. -/
theorem s2wPacksOrRefusesRange : Obligations.S2wPacksOrRefusesRange := by
  intro w o src count dst s hm
  rw [exec_cdcS2w, ← ite_and]
  refine ⟨fun hsrc hdst => ?_, fun hrange => if_neg fun ⟨hsrc, hdst⟩ =>
    hrange.elim (Nat.not_lt.mpr hsrc) (Nat.not_lt.mpr hdst)⟩
  have hlength : (stringToWords w o (s.bmem.readRange src.toNat count.toNat)).length =
      ceilDiv count.toNat (octetsPerWord w) := by rw [length_stringToWords, Memory.length_readRange]
  have hres : (BitVec.ofNat 64 (ceilDiv count.toNat (octetsPerWord w))).toNat =
      ceilDiv count.toNat (octetsPerWord w) := Nat.mod_eq_of_lt ((ceilDiv_le _ w).trans_lt count.isLt)
  refine ⟨_, _, if_pos ⟨hsrc, hdst⟩, hres, fun j hj => ?_, fun a ha => ?_⟩
  · rw [hres, ← hlength] at hj
    have hcell := getElem?_eq_read_writeRange hm dst.toNat _ hj
    have hword := toNat_wordAt_stringToWords w o _ hj
    rw [wordAt, hcell, Option.getD_some] at hword
    simp only [hword, packOctets, weight_eq_pow_octetPlace, List.getElem?_drop, getD_readRange,
      apply_ite BitVec.toNat, BitVec.toNat_zero]
  · rw [hres, ← hlength] at ha
    exact read_writeRange_outside hm dst.toNat _ ha

/-- Settles O36. -/
theorem w2sUnpacksOrRefusesRange : Obligations.W2sUnpacksOrRefusesRange := by
  intro w o src count dst s hm ⟨_, hsize, _, _⟩
  rw [exec_cdcW2s, ← ite_and]
  refine ⟨fun hsrc hdst => ?_, fun hrange => if_neg fun ⟨hsrc, hdst⟩ =>
    hrange.elim (Nat.not_lt.mpr hsrc) (Nat.not_lt.mpr hdst)⟩
  have hlength : (wordsToString w o (s.wmem.readRange src.toNat count.toNat)).length =
      count.toNat * octetsPerWord w := by rw [length_wordsToString, Memory.length_readRange]
  have hres : (BitVec.ofNat 64 (count.toNat * octetsPerWord w)).toNat = count.toNat * octetsPerWord w :=
    Nat.mod_eq_of_lt (by omega)
  refine ⟨_, _, if_pos ⟨hsrc, hdst⟩, hres, fun j k hj hk => ?_, fun a ha => ?_⟩
  · have hoctet := getElem?_wordsToString w o (s.wmem.readRange src.toNat count.toNat) j k (by simpa using hj) hk
    have hplace : j * octetsPerWord w + k < (wordsToString w o (s.wmem.readRange src.toNat count.toNat)).length := by
      rw [hlength]
      calc j * octetsPerWord w + k < (j + 1) * octetsPerWord w := by rw [Nat.succ_mul]; omega
        _ ≤ count.toNat * octetsPerWord w := Nat.mul_le_mul_right _ hj
    have hcell := getElem?_eq_read_writeRange hm dst.toNat _ hplace
    rw [wordAt, getD_readRange, if_pos hj, hcell] at hoctet
    rw [weight_eq_pow_octetPlace]
    exact Option.some.inj hoctet
  · rw [hres, ← hlength] at ha
    exact read_writeRange_outside hm dst.toNat _ ha

end Sys2Proof

/-! The digest commands (spec/43_md5.md R139 to R142; spec/44_sha1.md R168 to R171). What they share is stated for
both byte orders: the padded message held in WMEM, and a run of commands that each take a state to the next of a
sequence. -/

namespace Sys2Proof

open Machine

/-! ### What the two digests share -/

theorem execAll_append {l l' : List Instr} {s t : State} (h : execAll l s = .next t) :
    execAll (l ++ l') s = execAll l' t := by
  induction l generalizing s with
  | nil =>
    obtain rfl := Host.Outcome.next.inj h
    rfl
  | cons i l ih =>
    obtain ⟨u, hexec, -⟩ := exec_effect i s
    rw [execAll_cons hexec] at h
    rw [List.cons_append, execAll_cons hexec]
    exact ih h

/-- Commands that each take a state to the next of a sequence take the first state to the last. -/
theorem execAll_map_range {f : Nat → Instr} {S : Nat → State} {n : Nat}
    (h : ∀ k < n, exec (f k) (S k) = .next (S (k + 1))) : execAll ((List.range n).map f) (S 0) = .next (S n) := by
  induction n with
  | zero => rfl
  | succ n ih =>
    rw [List.range_succ, List.map_append, execAll_append (ih fun k hk => h k (Nat.lt_succ_of_lt hk)), List.map_singleton,
      execAll_singleton]
    exact h n (Nat.lt_succ_self n)

/-- Block `k` of a padded message that stands in WMEM from `a` on. -/
theorem wordBlock_eq_readRange {o : ByteOrder} {msg : List Octet} {m : Memory 32} {a : Nat}
    (hwords : ∀ n < 16 * blockCount msg.length,
      (stringToWords .w32 o (padMessage o msg))[n]? = some (m.read (a + n)))
    {k : Nat} (hk : k < blockCount msg.length) :
    wordBlock (stringToWords .w32 o (padMessage o msg)) k = m.readRange (a + 16 * k) 16 := by
  refine eq_readRange_of_getElem? (length_wordBlock_padMessage o msg hk) fun j hj => ?_
  rw [wordBlock, List.getElem?_take_of_lt hj, List.getElem?_drop, hwords _ (by omega), Nat.add_assoc]

/-- The number of blocks fits `RES`. -/
theorem toNat_ofNat_blockCount (len : Operand) :
    (BitVec.ofNat 64 (blockCount len.toNat)).toNat = (len.toNat + 8) / 64 + 1 := by
  have := len.isLt
  exact Nat.mod_eq_of_lt (by rw [blockCount]; omega)

/-- Two ranges that hold the same cells read as the same list. -/
theorem readRange_congr {w : Nat} {m m' : Memory w} {a a' n : Nat}
    (h : ∀ j < n, m.read (a + j) = m'.read (a' + j)) : m.readRange a n = m'.readRange a' n :=
  eq_readRange_of_getElem? (Memory.length_readRange m a n) fun j hj => by
    rw [Memory.getElem?_readRange m a n j hj, h j hj]

/-! ### MD5 (43_md5.md R139 to R142) -/

/-- Settles O41. -/
theorem md5InitSetsTheAccumulators : Obligations.Md5InitSetsTheAccumulators :=
  fun s => exec_md5Init s

/-- Settles O42. -/
theorem md5BlockCompressesCells : Obligations.Md5BlockCompressesCells := by
  intro widx s
  rw [exec_md5Block]
  exact ⟨fun hrange =>
      ⟨_, Memory.length_readRange .., fun j hj => Memory.getElem?_readRange _ _ _ _ hj, if_pos hrange⟩,
    fun hrange => if_neg (Nat.not_le.mpr hrange)⟩

/-- Settles O43. -/
theorem md5OutWritesTheAccumulators : Obligations.Md5OutWritesTheAccumulators := by
  intro dst s hm
  rw [exec_md5Out]
  obtain ⟨hcells, houtside⟩ := read_writeRange_of_length hm dst.toNat (length_md5Octets s.ma)
  exact ⟨fun hrange => ⟨_, if_pos hrange,
      fun n hn => Option.some.inj ((hcells n hn).trans (getElem?_md5Octets s.ma hn)), houtside⟩,
    fun hrange => if_neg (Nat.not_le.mpr hrange)⟩

theorem length_md5Digest (msg : List Octet) : (md5Digest msg).length = 16 := length_md5Octets _

/-- Settles O44. -/
theorem md5DigestCommandDigestsTheSource : Obligations.Md5DigestCommandDigestsTheSource := by
  intro src len dst s hm
  rw [exec_md5Digest, ← ite_and]
  refine ⟨fun hsrc hdst => ?_, fun hrange => if_neg fun ⟨hsrc, hdst⟩ =>
    hrange.elim (Nat.not_lt.mpr hsrc) (Nat.not_lt.mpr hdst)⟩
  exact ⟨_, _, _, Memory.length_readRange .., fun j hj => Memory.getElem?_readRange _ _ _ _ hj, if_pos ⟨hsrc, hdst⟩,
    toNat_ofNat_blockCount len, read_writeRange_of_length hm dst.toNat (length_md5Digest _)⟩

/-- The state after `k` blocks of a list of words from the initial accumulators. -/
def afterMd5Blocks (s : State) (words : List Word) (k : Nat) : State :=
  { s with ma := md5Blocks k md5Iv words, response := some ⟨.ok, 0#64⟩ }

theorem exec_md5Block_padMessage {s : State} {msg : List Octet} {a k : Nat} (hsize : s.params.wmemWords < 2 ^ 32)
    (hrange : a + 16 * blockCount msg.length ≤ s.params.wmemWords)
    (hwords : ∀ n < 16 * blockCount msg.length,
      (stringToWords .w32 .little (md5Pad msg))[n]? = some (s.wmem.read (a + n)))
    (hk : k < blockCount msg.length) :
    exec (.md5Block (BitVec.ofNat 64 (a + 16 * k))) (afterMd5Blocks s (stringToWords .w32 .little (md5Pad msg)) k) =
      .next (afterMd5Blocks s (stringToWords .w32 .little (md5Pad msg)) (k + 1)) := by
  have haddr : (BitVec.ofNat 64 (a + 16 * k)).toNat = a + 16 * k := Nat.mod_eq_of_lt (by omega)
  have hblock : wordBlock (stringToWords .w32 .little (md5Pad msg)) k = s.wmem.readRange (a + 16 * k) 16 :=
    wordBlock_eq_readRange hwords hk
  simp only [afterMd5Blocks, md5Blocks_succ]
  rw [exec_md5Block, haddr, hblock]
  exact if_pos (show a + 16 * k + 16 ≤ s.params.wmemWords by omega)

/-- Settles O45: the blocks compressed one by one are those the digest compresses. -/
theorem md5BlockPathEqualsDigest : Obligations.Md5BlockPathEqualsDigest := by
  intro s src len dst widx msg hinv hsrc hdst hlen hmsg hwmem hwords
  obtain ⟨-, -, -, hsize⟩ := hinv.params_ok
  have hcount : (len.toNat + 8) / 64 + 1 = blockCount msg.length := by rw [hlen, blockCount]
  rw [hcount] at hwmem hwords ⊢
  have hinit : exec .md5Init s = .next (afterMd5Blocks s (stringToWords .w32 .little (md5Pad msg)) 0) := exec_md5Init s
  have hblocks := execAll_map_range fun k hk => exec_md5Block_padMessage hsize hwmem hwords (k := k) hk
  have hread := eq_readRange_of_getElem? hlen hmsg
  have hout :=
    (exec_md5Out (afterMd5Blocks s (stringToWords .w32 .little (md5Pad msg)) (blockCount msg.length)) dst).trans
      (if_pos hdst)
  refine ⟨_, _, (execAll_cons hinit _).trans ((execAll_append hblocks).trans ((execAll_singleton _ _).trans hout)),
    (exec_md5Digest ..).trans ((if_pos hsrc).trans (if_pos hdst)), ?_⟩
  rw [← hread]
  exact ⟨rfl, rfl, rfl, rfl, rfl⟩

/-- The state a completed digest command leaves. -/
theorem eq_of_exec_md5Digest_ok {s t : State} {src len dst : Operand} {r : Response}
    (hexec : exec (.md5Digest src len dst) s = .next t) (hr : t.response = some r) (hok : r.status = .ok) :
    t = { s with
      ma := md5DigestAcc (s.bmem.readRange src.toNat len.toNat)
      bmem := s.bmem.writeRange dst.toNat (md5Digest (s.bmem.readRange src.toNat len.toNat))
      response := some ⟨.ok, BitVec.ofNat 64 (blockCount len.toNat)⟩ } := by
  rw [exec_md5Digest, ← ite_and] at hexec
  split at hexec
  · exact (Host.Outcome.next.inj hexec).symm
  · obtain rfl := Host.Outcome.next.inj hexec
    obtain rfl := Option.some.inj hr
    exact Status.noConfusion hok

/-! ### SHA-1 (44_sha1.md R168 to R171) -/

/-- Settles O50. -/
theorem sha1InitSetsTheAccumulators : Obligations.Sha1InitSetsTheAccumulators :=
  fun s => exec_sha1Init s

/-- Settles O51. -/
theorem sha1BlockCompressesCells : Obligations.Sha1BlockCompressesCells := by
  intro widx s
  rw [exec_sha1Block]
  exact ⟨fun hrange =>
      ⟨_, Memory.length_readRange .., fun j hj => Memory.getElem?_readRange _ _ _ _ hj, if_pos hrange⟩,
    fun hrange => if_neg (Nat.not_le.mpr hrange)⟩

/-- Settles O52. -/
theorem sha1OutWritesTheAccumulators : Obligations.Sha1OutWritesTheAccumulators := by
  intro dst s hm
  rw [exec_sha1Out]
  obtain ⟨hcells, houtside⟩ := read_writeRange_of_length hm dst.toNat (length_sha1Octets s.sh)
  exact ⟨fun hrange => ⟨_, if_pos hrange,
      fun n hn => Option.some.inj ((hcells n hn).trans (getElem?_sha1Octets s.sh hn)), houtside⟩,
    fun hrange => if_neg (Nat.not_le.mpr hrange)⟩

theorem length_sha1Digest (msg : List Octet) : (sha1Digest msg).length = 20 := length_sha1Octets _

/-- Settles O53. -/
theorem sha1DigestCommandDigestsTheSource : Obligations.Sha1DigestCommandDigestsTheSource := by
  intro src len dst s hm
  rw [exec_sha1Digest, ← ite_and]
  refine ⟨fun hsrc hdst => ?_, fun hrange => if_neg fun ⟨hsrc, hdst⟩ =>
    hrange.elim (Nat.not_lt.mpr hsrc) (Nat.not_lt.mpr hdst)⟩
  exact ⟨_, _, _, Memory.length_readRange .., fun j hj => Memory.getElem?_readRange _ _ _ _ hj, if_pos ⟨hsrc, hdst⟩,
    toNat_ofNat_blockCount len, read_writeRange_of_length hm dst.toNat (length_sha1Digest _)⟩

/-- The state after `k` blocks of a list of words from the initial accumulators. -/
def afterSha1Blocks (s : State) (words : List Word) (k : Nat) : State :=
  { s with sh := sha1Blocks k sha1Iv words, response := some ⟨.ok, 0#64⟩ }

theorem exec_sha1Block_padMessage {s : State} {msg : List Octet} {a k : Nat} (hsize : s.params.wmemWords < 2 ^ 32)
    (hrange : a + 16 * blockCount msg.length ≤ s.params.wmemWords)
    (hwords : ∀ n < 16 * blockCount msg.length,
      (stringToWords .w32 .big (sha1Pad msg))[n]? = some (s.wmem.read (a + n)))
    (hk : k < blockCount msg.length) :
    exec (.sha1Block (BitVec.ofNat 64 (a + 16 * k))) (afterSha1Blocks s (stringToWords .w32 .big (sha1Pad msg)) k) =
      .next (afterSha1Blocks s (stringToWords .w32 .big (sha1Pad msg)) (k + 1)) := by
  have haddr : (BitVec.ofNat 64 (a + 16 * k)).toNat = a + 16 * k := Nat.mod_eq_of_lt (by omega)
  have hblock : wordBlock (stringToWords .w32 .big (sha1Pad msg)) k = s.wmem.readRange (a + 16 * k) 16 :=
    wordBlock_eq_readRange hwords hk
  simp only [afterSha1Blocks, sha1Blocks_succ]
  rw [exec_sha1Block, haddr, hblock]
  exact if_pos (show a + 16 * k + 16 ≤ s.params.wmemWords by omega)

/-- Settles O54: the blocks compressed one by one are those the digest compresses. -/
theorem sha1BlockPathEqualsDigest : Obligations.Sha1BlockPathEqualsDigest := by
  intro s src len dst widx msg hinv hsrc hdst hlen hmsg hwmem hwords
  obtain ⟨-, -, -, hsize⟩ := hinv.params_ok
  have hcount : (len.toNat + 8) / 64 + 1 = blockCount msg.length := by rw [hlen, blockCount]
  rw [hcount] at hwmem hwords ⊢
  have hinit : exec .sha1Init s = .next (afterSha1Blocks s (stringToWords .w32 .big (sha1Pad msg)) 0) := exec_sha1Init s
  have hblocks := execAll_map_range fun k hk => exec_sha1Block_padMessage hsize hwmem hwords (k := k) hk
  have hread := eq_readRange_of_getElem? hlen hmsg
  have hout :=
    (exec_sha1Out (afterSha1Blocks s (stringToWords .w32 .big (sha1Pad msg)) (blockCount msg.length)) dst).trans
      (if_pos hdst)
  refine ⟨_, _, (execAll_cons hinit _).trans ((execAll_append hblocks).trans ((execAll_singleton _ _).trans hout)),
    (exec_sha1Digest ..).trans ((if_pos hsrc).trans (if_pos hdst)), ?_⟩
  rw [← hread]
  exact ⟨rfl, rfl, rfl, rfl, rfl⟩

/-- The state a completed digest command leaves. -/
theorem eq_of_exec_sha1Digest_ok {s t : State} {src len dst : Operand} {r : Response}
    (hexec : exec (.sha1Digest src len dst) s = .next t) (hr : t.response = some r) (hok : r.status = .ok) :
    t = { s with
      sh := sha1DigestAcc (s.bmem.readRange src.toNat len.toNat)
      bmem := s.bmem.writeRange dst.toNat (sha1Digest (s.bmem.readRange src.toNat len.toNat))
      response := some ⟨.ok, BitVec.ofNat 64 (blockCount len.toNat)⟩ } := by
  rw [exec_sha1Digest, ← ite_and] at hexec
  split at hexec
  · exact (Host.Outcome.next.inj hexec).symm
  · obtain rfl := Host.Outcome.next.inj hexec
    obtain rfl := Option.some.inj hr
    exact Status.noConfusion hok

/-! ### Noninterference (10_state.md R31) -/

/-- Settles O55: both states leave what their source range gives, and the two ranges read as one list. -/
theorem digestDependsOnItsSourceAlone : Obligations.DigestDependsOnItsSourceAlone := by
  intro s s' t t' src src' len dst dst' hm hm' hsame
  have hread := readRange_congr hsame
  refine ⟨fun hexec hexec' r r' hr hr' hok hok' => ?_, fun hexec hexec' r r' hr hr' hok hok' => ?_⟩
  · obtain rfl := eq_of_exec_md5Digest_ok hexec hr hok
    obtain rfl := eq_of_exec_md5Digest_ok hexec' hr' hok'
    rw [← hread]
    refine ⟨rfl, Option.some.inj (hr.symm.trans hr'), fun n hn => Option.some.inj ?_⟩
    rw [(read_writeRange_of_length hm _ (length_md5Digest _)).1 n hn,
      (read_writeRange_of_length hm' _ (length_md5Digest _)).1 n hn]
  · obtain rfl := eq_of_exec_sha1Digest_ok hexec hr hok
    obtain rfl := eq_of_exec_sha1Digest_ok hexec' hr' hok'
    rw [← hread]
    refine ⟨rfl, Option.some.inj (hr.symm.trans hr'), fun n hn => Option.some.inj ?_⟩
    rw [(read_writeRange_of_length hm _ (length_sha1Digest _)).1 n hn,
      (read_writeRange_of_length hm' _ (length_sha1Digest _)).1 n hn]

/-- Settles O40, by evaluation. -/
theorem digestsOfTheSourceVectors : Obligations.DigestsOfTheSourceVectors := by
  unfold Obligations.DigestsOfTheSourceVectors
  decide +kernel

end Sys2Proof
